-- ==== Sys2Proof/Word.lean ====
section
/-! DEFINITION. The two word types of the core: the byte of a register or memory cell, and the nine bits of the program counter. -/

namespace Sys2Proof

/-- A register, a memory cell, an opcode or an operand: an unsigned 8-bit value (00 R6). -/
abbrev Byte := BitVec 8

/-- The program counter's width, also that of FAULT_PC and FAULT_VALUE (10 R14, R18). -/
abbrev PcWord := BitVec 9

end Sys2Proof
end

