-- ==== Sys2Proof/Config.lean ====
section
/-! DEFINITION. The build parameters of 00_scope.md rule R4 that the spec leaves open or gives a default: fixed when the core is built, never written by a step. Their default values stand in Decode.lean (OPCODE_MAP) and Machine/Params.lean. -/

namespace Sys2Proof

/-- `ALU_OPERANDS` (R4, 92 D7): where an ALU instruction takes its two register numbers from. -/
inductive AluOperands where
  /-- `FIXED_R0_R1`: always R0 and R1; the operand bytes are not delivered (42 R104). -/
  | fixedR0R1
  /-- `FROM_OPERAND_BYTES`: the two operand bytes are register indices (42 R105). -/
  | fromOperandBytes
  deriving DecidableEq, Repr

/-- `OPCODE_MAP` (R4, 92 D2, 93 I17): the opcode byte of each mnemonic. -/
structure OpcodeMap where
  hlt : Byte
  push : Byte
  pop : Byte
  prn : Byte
  ldi : Byte
  mul : Byte
  add : Byte
  sub : Byte
  deriving DecidableEq, Repr

/-- The build parameters (R4). -/
structure Config where
  /-- `MEM_SIZE`: the number of cells of Memory. -/
  memSize : Nat
  /-- `NREGS`: the number of registers. -/
  nregs : Nat
  /-- `ALU_OPERANDS` (92 D7). -/
  aluOperands : AluOperands
  /-- `WIRE_ADD_SUB` (92 D8): whether ADD and SUB are in the dispatch table. -/
  wireAddSub : Bool
  /-- `STACK_FLOOR` (92 D4): PUSH faults when `sp <= STACK_FLOOR`. -/
  stackFloor : Byte
  /-- `SP_INIT`: the stack pointer after reset. -/
  spInit : Byte
  /-- `OPCODE_MAP` (92 D2). -/
  opcodes : OpcodeMap
  deriving DecidableEq, Repr

end Sys2Proof
end

