-- ==== Sys2Proof/Syntax.lean ====
section
/-! DEFINITION. The instructions as syntax: one constructor of Instr per row of spec/opcode_table.json, each with the operand latches its length gives it. -/

namespace Sys2Proof

/-- An operand latch `OPA` or `OPB`: a byte, or `none` for the spec's `Absent`, when its address is past the end of Memory (40 R72). -/
abbrev Latch := Option Byte

/-- What a fetch leaves in the core for the rest of the step (10 R21, 40 R71, R72). -/
structure Latches where
  ir : Byte
  opa : Latch
  opb : Latch
  deriving DecidableEq, Repr

/-- The mnemonics of the dispatch table (30 R54). -/
inductive Op where
  | hlt | push | pop | prn | ldi | mul | add | sub
  deriving DecidableEq, Repr

/-- Every mnemonic once, in the order of spec/opcode_table.json. -/
def Op.all : List Op := [.hlt, .push, .pop, .prn, .ldi, .mul, .add, .sub]

/-- The number of operand bytes that follow the opcode: the column N of 30 R54. -/
def Op.slots : Op → Nat
  | .hlt => 0
  | .push => 1
  | .pop => 1
  | .prn => 1
  | .ldi => 2
  | .mul => 2
  | .add => 2
  | .sub => 2

/-- Whether the mnemonic is an ALU instruction: the column A of 30 R54. -/
def Op.isAlu : Op → Bool
  | .mul => true
  | .add => true
  | .sub => true
  | .hlt => false
  | .push => false
  | .pop => false
  | .prn => false
  | .ldi => false

/-- An instruction: its mnemonic and the operand bytes in its length (30 R50, R51). Operand bytes are whole bytes, unchecked by the decoder (30 R57); a latch is absent where the instruction runs past the end of Memory (20 R38). -/
inductive Instr where
  /-- HLT (41 R90). -/
  | hlt
  /-- PUSH regA (43 R110). -/
  | push (a : Latch)
  /-- POP regA (43 R111). -/
  | pop (a : Latch)
  /-- PRN regA (41 R92). -/
  | prn (a : Latch)
  /-- LDI regA, imm (41 R91). -/
  | ldi (a imm : Latch)
  /-- MUL and its two operand bytes, delivered or not by ALU_OPERANDS (42 R104, R105). -/
  | mul (a b : Latch)
  /-- ADD (42 R106). -/
  | add (a b : Latch)
  /-- SUB (42 R107). -/
  | sub (a b : Latch)
  deriving DecidableEq, Repr

/-- The mnemonic of an instruction. -/
def Instr.op : Instr → Op
  | .hlt => .hlt
  | .push _ => .push
  | .pop _ => .pop
  | .prn _ => .prn
  | .ldi _ _ => .ldi
  | .mul _ _ => .mul
  | .add _ _ => .add
  | .sub _ _ => .sub

/-- Why the decoder answers no instruction. -/
inductive Reject where
  /-- There is no opcode byte to read: the bytes are at their end. -/
  | noBytes
  /-- The opcode byte is in no row of OPCODE_MAP (30 R53, R56). -/
  | illegalOpcode (ir : Byte)
  deriving DecidableEq, Repr

end Sys2Proof
end

