-- ==== Sys2Proof/WellFormed.lean ====
section
/-! DEFINITION. Which terms of Instr a fetch can give: OPB is present only where OPA is, since the address pc + 2 is in Memory only where pc + 1 is (40 R72). Operand VALUES are never a matter of well-formedness (30 R57). -/

namespace Sys2Proof

/-- The pattern of two latches that one fetch can leave: OPA absent implies OPB absent. -/
def latchesInOrder (a b : Latch) : Bool := a.isSome || b.isNone

/-- The check on a term: its latches are in order. -/
def Instr.wellFormed : Instr → Bool
  | .hlt => true
  | .push _ => true
  | .pop _ => true
  | .prn _ => true
  | .ldi a imm => latchesInOrder a imm
  | .mul a b => latchesInOrder a b
  | .add a b => latchesInOrder a b
  | .sub a b => latchesInOrder a b

/-- No latch is absent: the whole instruction lies within Memory. -/
def Instr.complete : Instr → Bool
  | .hlt => true
  | .push a => a.isSome
  | .pop a => a.isSome
  | .prn a => a.isSome
  | .ldi a imm => a.isSome && imm.isSome
  | .mul a b => a.isSome && b.isSome
  | .add a b => a.isSome && b.isSome
  | .sub a b => a.isSome && b.isSome

end Sys2Proof
end

