-- ==== Sys2Proof/Decode.lean ====
section
/-! DEFINITION. From bytes to instructions and back, from the encoding tables of 30_encoding.md. Decode is total on any bytes and rejects by name; OPCODE_MAP is its argument. -/

namespace Sys2Proof

/-- `n = opcode >> 6`, the operand count (30 R50, 40 R73). -/
def operandCount (ir : Byte) : BitVec 2 := ir.extractLsb' 6 2

/-- `A = (opcode >> 5) & 1`, the ALU flag (30 R50, 40 R73). -/
def aluFlag (ir : Byte) : Bool := ir.getLsbD 5

/-- An instruction's length in bytes, from its opcode alone (30 R52). -/
def instrLength (ir : Byte) : Nat := (operandCount ir).toNat + 1

/-- The opcode byte of a mnemonic. -/
def OpcodeMap.code (m : OpcodeMap) : Op → Byte
  | .hlt => m.hlt
  | .push => m.push
  | .pop => m.pop
  | .prn => m.prn
  | .ldi => m.ldi
  | .mul => m.mul
  | .add => m.add
  | .sub => m.sub

/-- The mnemonic whose opcode matches all eight bits of a byte (30 R53). -/
def OpcodeMap.find (m : OpcodeMap) (ir : Byte) : Option Op :=
  Op.all.find? fun op => m.code op == ir

/-- The default `OPCODE_MAP` (30 R54): HLT, LDI, PRN from the source's section 8, the others decision D2. -/
def OpcodeMap.standard : OpcodeMap where
  hlt := 0x01
  push := 0x45
  pop := 0x46
  prn := 0x47
  ldi := 0x82
  mul := 0xA2
  add := 0xA0
  sub := 0xA1

/-- What a replacement OPCODE_MAP must keep (92 D2): n is the byte count minus 1, and bit 5 marks the ALU instructions (30 R50). The opcodes are distinct, since the table maps an opcode to one handler (30 R53). -/
abbrev OpcodeMap.Legal (m : OpcodeMap) : Prop :=
  (Op.all.map m.code).Nodup ∧
    ∀ op ∈ Op.all, (operandCount (m.code op)).toNat = op.slots ∧ aluFlag (m.code op) = op.isAlu

/-- Whether a mnemonic has a handler in this build: ADD and SUB only with `WIRE_ADD_SUB` (30 R54, 92 D8). -/
def Config.wires (cfg : Config) : Op → Bool
  | .add => cfg.wireAddSub
  | .sub => cfg.wireAddSub
  | .hlt => true
  | .push => true
  | .pop => true
  | .prn => true
  | .ldi => true
  | .mul => true

/-- Whether an opcode byte is in the dispatch table of this build (30 R54, R56). -/
def Config.dispatches (cfg : Config) (ir : Byte) : Bool :=
  match cfg.opcodes.find ir with
  | some op => cfg.wires op
  | none => false

/-- `arity(IR)`, the number of operand values a handler receives (30 R55). -/
def Config.arity (cfg : Config) (ir : Byte) : Nat :=
  if aluFlag ir = true ∧ cfg.aluOperands = .fixedR0R1 then 0 else (operandCount ir).toNat

/-- The instruction of a mnemonic over the two operand latches, as many of them as its length has (30 R51). -/
def Op.build (opa opb : Latch) : Op → Instr
  | .hlt => .hlt
  | .push => .push opa
  | .pop => .pop opa
  | .prn => .prn opa
  | .ldi => .ldi opa opb
  | .mul => .mul opa opb
  | .add => .add opa opb
  | .sub => .sub opa opb

/-- Decoding the latches of a fetch (30 R53, 40 R73, R74). -/
def decode (m : OpcodeMap) (l : Latches) : Except Reject Instr :=
  match m.find l.ir with
  | some op => .ok (op.build l.opa l.opb)
  | none => .error (.illegalOpcode l.ir)

/-- The latches that bytes in increasing address order give: opcode, operand a, operand b (20 R34). -/
def latchesOf : List Byte → Option Latches
  | [] => none
  | ir :: rest => some { ir := ir, opa := rest[0]?, opb := rest[1]? }

/-- Decoding bytes in increasing address order. -/
def decodeBytes (m : OpcodeMap) (bytes : List Byte) : Except Reject Instr :=
  match latchesOf bytes with
  | some l => decode m l
  | none => .error .noBytes

/-- The operand bytes two latches stand for, in address order; they end where the first latch is absent. -/
def latchBytes (a b : Latch) : List Byte :=
  match a with
  | some x => x :: b.toList
  | none => []

/-- The operand bytes of an instruction. -/
def Instr.operandBytes : Instr → List Byte
  | .hlt => []
  | .push a => latchBytes a none
  | .pop a => latchBytes a none
  | .prn a => latchBytes a none
  | .ldi a imm => latchBytes a imm
  | .mul a b => latchBytes a b
  | .add a b => latchBytes a b
  | .sub a b => latchBytes a b

/-- The bytes of an instruction in increasing address order (30 R50, R60). -/
def encode (m : OpcodeMap) (i : Instr) : List Byte :=
  m.code i.op :: i.operandBytes

/-- Three bytes of an instruction whose `nbits` bits are `w`, byte k at bits 8k+7..8k, and zero above `nbits`. Three is the longest length (30 R50). -/
def tableBytes (nbits w : Nat) : List Byte :=
  let v := w % 2 ^ nbits
  [BitVec.ofNat 8 v, BitVec.ofNat 8 (v / 256), BitVec.ofNat 8 (v / 65536)]

/-- The instruction the decoder reads, with the default OPCODE_MAP, from bits numbered as spec/opcode_table.json numbers them. -/
def decodeTableWord (nbits w : Nat) : Option Instr :=
  match decodeBytes .standard (tableBytes nbits w) with
  | .ok i => some i
  | .error _ => none

end Sys2Proof
end

