-- ==== Sys2Proof/Machine/Params.lean ====
section
/-! DEFINITION. The default build of 00_scope.md rule R4, and which builds are the core's. -/

namespace Sys2Proof

/-- The parameters' defaults (R4). -/
def Config.standard : Config where
  memSize := 256
  nregs := 8
  aluOperands := .fixedR0R1
  wireAddSub := false
  stackFloor := 0x00
  spInit := 0xF4
  opcodes := .standard

/-- A build of the core: Memory is addressed by bytes (R4's ADDR_RANGE), registers are named by bytes and include R0 and R1 (42 R104), and the stack begins within Memory (DEDUCED, entry 14). -/
abbrev Config.Legal (cfg : Config) : Prop :=
  cfg.opcodes.Legal ∧ (1 ≤ cfg.memSize ∧ cfg.memSize ≤ 256) ∧ (2 ≤ cfg.nregs ∧ cfg.nregs ≤ 256) ∧
    cfg.spInit.toNat ≤ cfg.memSize

end Sys2Proof
end

