-- ==== Sys2Proof/Machine/State.lean ====
section
/-! DEFINITION. The state of the core, all of 10_state.md rule R10, and the state after reset (R23). -/

namespace Sys2Proof.Machine

/-- The values of `STATUS` (10 R17). The code 3 is reserved and never written, so it has no constructor. -/
inductive Status where
  /-- 0: the next step executes an instruction. -/
  | running
  /-- 1: terminal, entered by HLT. -/
  | halted
  /-- 2: terminal, entered by any fault. -/
  | faulted
  deriving DecidableEq, Repr

/-- The encoding of `STATUS` (10 R17). -/
def Status.code : Status → BitVec 2
  | .running => 0
  | .halted => 1
  | .faulted => 2

/-- The values of `FAULT_KIND` (10 R18, 60 R120). -/
inductive FaultKind where
  /-- 0: no fault recorded. -/
  | none
  /-- 1: a memory or register index outside its range (60 R121). -/
  | outOfBounds
  /-- 2: the opcode has no handler (60 R122). -/
  | illegalInstruction
  /-- 3: the ALU was given the select code 0b11 (60 R123). -/
  | unsupportedOperation
  deriving DecidableEq, Repr

/-- The encoding of `FAULT_KIND` (10 R18). -/
def FaultKind.code : FaultKind → BitVec 2
  | .none => 0
  | .outOfBounds => 1
  | .illegalInstruction => 2
  | .unsupportedOperation => 3

/-- The values of `FAULT_WHERE` (10 R18). Its code 0 also stands where the kind is not OutOfBounds. The codes 5..7 are never written. -/
inductive FaultPlace where
  /-- 0: opcode fetch with pc past Memory, or no place. -/
  | fetch
  /-- 1: a delivered operand is Absent. -/
  | operand
  /-- 2: a register operand byte that names no register. -/
  | register
  /-- 3: PUSH with sp <= STACK_FLOOR, or storing past Memory. -/
  | stackPush
  /-- 4: POP with sp = 0xFF, or reading past Memory. -/
  | stackPop
  deriving DecidableEq, Repr

/-- The encoding of `FAULT_WHERE` (10 R18). -/
def FaultPlace.code : FaultPlace → BitVec 3
  | .fetch => 0
  | .operand => 1
  | .register => 2
  | .stackPush => 3
  | .stackPop => 4

/-- The fault record, one field per row of 10 R18. -/
structure FaultRecord where
  kind : FaultKind
  place : FaultPlace
  pc : PcWord
  opcodeValid : Bool
  opcode : Byte
  value : PcWord
  deriving DecidableEq, Repr

/-- The fault record after reset (10 R23). -/
def FaultRecord.cleared : FaultRecord where
  kind := .none
  place := .fetch
  pc := 0
  opcodeValid := false
  opcode := 0
  value := 0

/-- What a step raises: `raise K(where, value)` (00 R7, 60 R120). -/
inductive Cause where
  /-- OutOfBounds(where, value) (60 R121). -/
  | outOfBounds (place : FaultPlace) (value : PcWord)
  /-- IllegalInstruction(none, 0) (60 R122). -/
  | illegalInstruction
  /-- UnsupportedOperation(none, value), raised with the select code 3 as its value (42 R100, 60 R123). -/
  | unsupportedOperation (value : PcWord)
  deriving DecidableEq, Repr

/-- Memory (20 R30): the cells that differ from 0, addresses strictly rising. How many cells there are is the build's MEM_SIZE. An unlisted address reads 0, Memory's reset contents (10 R23). -/
abbrev Memory := List Host.Cell

/-- The canonical form of a Memory of `size` cells: addresses strictly rising and below `size`, no cell 0. -/
abbrev Memory.wf (m : Memory) (size : Nat) : Prop :=
  (m.map Prod.fst).Pairwise (· < ·) ∧ ∀ c ∈ m, c.1 < size ∧ c.2 ≠ 0

/-- The architectural state (10 R10), and the build parameters it was built with. -/
structure State where
  /-- The build parameters (00 R4). The MODEL's own field: no register, and no step writes it (DESIGN CHOICE, entry 1). -/
  cfg : Config
  /-- `M[0..MEM_SIZE-1]` (20 R30). -/
  mem : Memory
  /-- `x[0..NREGS-1]` (10 R11), as many as the build has. -/
  regs : List Byte
  /-- `pc` (10 R14). -/
  pc : PcWord
  /-- `sp` (10 R15). -/
  sp : Byte
  /-- `STATUS` (10 R17). -/
  status : Status
  /-- `FAULT_*` (10 R18). -/
  fault : FaultRecord
  /-- `OUT`, oldest byte first (10 R20). -/
  out : List Byte
  deriving DecidableEq, Repr

/-- Reset of a core built with the parameters `cfg` (10 R23, 70 R140). -/
def State.resetWith (cfg : Config) : State where
  cfg := cfg
  mem := []
  regs := List.replicate cfg.nregs 0
  pc := 0
  sp := cfg.spInit
  status := .running
  fault := .cleared
  out := []

/-- The state right after reset, with the parameters at their defaults (10 R23). -/
def State.reset : State := .resetWith .standard

/-- Why the machine has no step. -/
inductive Fault where
  /-- Raised by step when STATUS is Halted: "no further cycles execute" (40 R70). Safe: the core has no step there either. -/
  | halted
  /-- Raised by step when STATUS is Faulted: terminal until reset (40 R70, 60 R126). Safe: the core has no step there either. -/
  | faulted
  deriving DecidableEq, Repr

/-- Why the model gives no meaning. No arm of exec answers a refusal. -/
inductive Refusal where
  /-- For an arm of exec whose instruction has no meaning yet; none is left. Safe: the model stops. -/
  | notModelled (mnemonic : String)
  deriving DecidableEq, Repr

end Sys2Proof.Machine
end

