-- ==== Sys2Proof/Machine/Flags.lean ====
section
/-! DEFINITION. The ALU primitive of 42_alu.md. The core has NO flags (10 R16): a carry, borrow or high half is recorded nowhere, so narrowing the exact result to eight bits is all there is. -/

namespace Sys2Proof.Machine

/-- `trunc8(v) = v mod 256`, the non-negative remainder (00 R6). -/
def trunc8 (v : Int) : Byte := BitVec.ofInt 8 v

/-- The select codes of the ALU (42 R100). -/
def selAdd : BitVec 2 := 0b00
/-- SUB's select code (42 R100). -/
def selSub : BitVec 2 := 0b01
/-- MUL's select code (42 R100). -/
def selMul : BitVec 2 := 0b10

/-- `ALU(op, a, b)` (42 R100 to R103): exact on integers, then narrowed; the code 0b11 raises UnsupportedOperation(none, 3). -/
def alu (sel : BitVec 2) (a b : Byte) : Except Cause Byte :=
  if sel = selAdd then .ok (trunc8 ((a.toNat : Int) + (b.toNat : Int)))
  else if sel = selSub then .ok (trunc8 ((a.toNat : Int) - (b.toNat : Int)))
  else if sel = selMul then .ok (trunc8 ((a.toNat : Int) * (b.toNat : Int)))
  else .error (.unsupportedOperation 3)

end Sys2Proof.Machine
end

