-- ==== Sys2Proof/Machine/Ops.lean ====
section
/-! DEFINITION. The primitives of 00_scope.md rule R7 over the state: memory, registers, output, fault entry, the end of a handler, and the fetch. -/

namespace Sys2Proof.Machine

/-- One cell. An unlisted address holds 0 (10 R23). -/
def Memory.read : Memory → Nat → Byte
  | [], _ => 0
  | (b, w) :: m, a => if a = b then w else Memory.read m a

/-- One cell replaced, in the canonical form. -/
def Memory.write : Memory → Nat → Byte → Memory
  | [], a, v => if v = 0 then [] else [(a, v)]
  | (b, w) :: m, a, v =>
    if a < b then (if v = 0 then (b, w) :: m else (a, v) :: (b, w) :: m)
    else if a = b then (if v = 0 then m else (a, v) :: m)
    else (b, w) :: Memory.write m a v

/-- `MemRead(addr, 1)` with the caller's place (20 R31); the rule's 255 is MEM_SIZE - 1 (DEDUCED, entry 14). -/
def memRead (s : State) (place : FaultPlace) (addr : Nat) : Except Cause Byte :=
  if s.cfg.memSize ≤ addr then .error (.outOfBounds place (BitVec.ofNat 9 addr))
  else .ok (s.mem.read addr)

/-- `MemWrite(addr, 1, v)` with the caller's place (20 R32); the rule's 255 is MEM_SIZE - 1 (DEDUCED, entry 14). -/
def memWrite (s : State) (place : FaultPlace) (addr : Nat) (v : Byte) : Except Cause State :=
  if s.cfg.memSize ≤ addr then .error (.outOfBounds place (BitVec.ofNat 9 addr))
  else .ok { s with mem := s.mem.write addr v }

/-- `x[i]` (10 R11), for an index that RegIndex has taken or R0 or R1. -/
def State.readReg (s : State) (i : Nat) : Byte := s.regs.getD i 0

/-- `x[i] <- v` (10 R11). -/
def State.writeReg (s : State) (i : Nat) (v : Byte) : State :=
  { s with regs := s.regs.set i v }

/-- `sp <- v` (10 R15). -/
def State.writeSp (s : State) (v : Byte) : State := { s with sp := v }

/-- `Emit(v)` (10 R20). -/
def State.emit (s : State) (v : Byte) : State := { s with out := s.out ++ [v] }

/-- `STATUS <- Halted` (41 R90). -/
def State.halt (s : State) : State := { s with status := .halted }

/-- `pc <- pc + n + 1` (40 R77). -/
def State.advance (s : State) (n : BitVec 2) : State :=
  { s with pc := s.pc + n.setWidth 9 + 1 }

/-- `FAULT_KIND` of a cause (60 R120). -/
def Cause.kind : Cause → FaultKind
  | .outOfBounds _ _ => .outOfBounds
  | .illegalInstruction => .illegalInstruction
  | .unsupportedOperation _ => .unsupportedOperation

/-- `FAULT_WHERE` of a cause: "where (0 if K is not OutOfBounds)" (60 R125). -/
def Cause.place : Cause → FaultPlace
  | .outOfBounds place _ => place
  | .illegalInstruction => .fetch
  | .unsupportedOperation _ => .fetch

/-- `FAULT_VALUE` of a cause: the value raised (60 R125), but 0 for UnsupportedOperation, as 60 R123 and 10 R18 say (DEDUCED, entry 4). -/
def Cause.value : Cause → PcWord
  | .outOfBounds _ value => value
  | .illegalInstruction => 0
  | .unsupportedOperation _ => 0

/-- The record a fault leaves: `ir` is the fetched opcode, absent where the fetch itself faulted (60 R125). -/
def faultRecord (pc : PcWord) (ir : Option Byte) (c : Cause) : FaultRecord where
  kind := c.kind
  place := c.place
  pc := pc
  opcodeValid := ir.isSome
  opcode := ir.getD 0
  value := c.value

/-- Fault entry (60 R125): STATUS and the fault record are written, nothing else. There is no return from it but reset (60 R126). -/
def State.raise (s : State) (ir : Option Byte) (c : Cause) : State :=
  { s with status := .faulted, fault := faultRecord s.pc ir c }

/-- The end of every handler but HLT's: a raised fault is entered from the state before the handler, and a completed handler advances pc by the opcode's n + 1 (00 R8, R9; 40 R76, R77). -/
def conclude (s : State) (op : Op) (r : Except Cause State) :
    Host.Outcome State Fault Refusal :=
  match r with
  | .error c => .next (s.raise (some (s.cfg.opcodes.code op)) c)
  | .ok t => .next (t.advance (operandCount (s.cfg.opcodes.code op)))

/-- The operand fetch at an address: Absent past the end of Memory, and no fault (40 R72). -/
def State.latchAt (s : State) (addr : Nat) : Latch :=
  match memRead s .operand addr with
  | .ok v => some v
  | .error _ => none

/-- The fetch of a step: opcode and both operand bytes (40 R71, R72). -/
def fetch (s : State) : Except Cause Latches :=
  match memRead s .fetch s.pc.toNat with
  | .ok ir => .ok { ir := ir, opa := s.latchAt (s.pc.toNat + 1), opb := s.latchAt (s.pc.toNat + 2) }
  | .error c => .error c

/-- Bytes placed in a Memory of `size` cells at rising addresses; those past its end have no cell. -/
def Memory.place (m : Memory) (size addr : Nat) : List Byte → Memory
  | [] => m
  | b :: bs => Memory.place (if size ≤ addr then m else m.write addr b) size (addr + 1) bs

end Sys2Proof.Machine
end

