-- ==== Sys2Proof/Machine/Operands.lean ====
section
/-! DEFINITION. Operand delivery and the operand uses of 30_encoding.md rule R51, and the dispatch check. -/

namespace Sys2Proof.Machine

/-- Delivery of the operand latched at `pc + offset`: Absent raises OutOfBounds(Operand, pc + offset) (40 R75). -/
def deliver (s : State) (offset : PcWord) : Latch → Except Cause Byte
  | some v => .ok v
  | none => .error (.outOfBounds .operand (s.pc + offset))

/-- `RegIndex(b)` (10 R13): a byte below NREGS names a register, any other raises OutOfBounds(Register, b); the rule's 7 is NREGS - 1 (DEDUCED, entry 14). -/
def regIndex (nregs : Nat) (b : Byte) : Except Cause Nat :=
  if nregs ≤ b.toNat then .error (.outOfBounds .register (b.setWidth 9))
  else .ok b.toNat

/-- The operand of a one-operand handler: OPA as a register (30 R51, 40 R75). -/
def registerOperand (s : State) (a : Latch) : Except Cause Nat := do
  let x ← deliver s 1 a
  regIndex s.cfg.nregs x

/-- The two registers of an ALU instruction, the first of them the destination: R0 and R1 with no operand delivered, or both operand bytes, checked a before b (42 R104, R105). -/
def aluRegisters (s : State) (a b : Latch) : Except Cause (Nat × Nat) :=
  match s.cfg.aluOperands with
  | .fixedR0R1 => .ok (0, 1)
  | .fromOperandBytes => do
    let x ← deliver s 1 a
    let y ← deliver s 2 b
    let ra ← regIndex s.cfg.nregs x
    let rb ← regIndex s.cfg.nregs y
    .ok (ra, rb)

/-- The dispatch lookup's answer for a mnemonic: one that is not wired raises IllegalInstruction before any operand is consumed (40 R74, 42 R106, R107). -/
def requireWired (s : State) (op : Op) : Except Cause Unit :=
  if s.cfg.wires op = true then .ok () else .error .illegalInstruction

end Sys2Proof.Machine
end

