-- ==== Sys2Proof/Machine/Alu.lean ====
section
/-! DEFINITION. MUL, ADD and SUB (42_alu.md). -/

namespace Sys2Proof.Machine

/-- The handler the three ALU instructions share, by select code (42 R104 to R107): both registers are read before the first is written. -/
def aluHandler (sel : BitVec 2) (a b : Latch) (s : State) : Except Cause State := do
  let r ← aluRegisters s a b
  let v ← alu sel (s.readReg r.1) (s.readReg r.2)
  .ok (s.writeReg r.1 v)

/-- MUL (42 R104, R105). -/
def execMul (a b : Latch) (s : State) : Host.Outcome State Fault Refusal :=
  conclude s .mul (aluHandler selMul a b s)

/-- ADD (42 R106): an illegal opcode unless wired. -/
def execAdd (a b : Latch) (s : State) : Host.Outcome State Fault Refusal :=
  conclude s .add do
    requireWired s .add
    aluHandler selAdd a b s

/-- SUB (42 R107): an illegal opcode unless wired. -/
def execSub (a b : Latch) (s : State) : Host.Outcome State Fault Refusal :=
  conclude s .sub do
    requireWired s .sub
    aluHandler selSub a b s

end Sys2Proof.Machine
end

