-- ==== Sys2Proof/Machine/Basic.lean ====
section
/-! DEFINITION. HLT, LDI and PRN (41_basic.md). -/

namespace Sys2Proof.Machine

/-- HLT (41 R90, 40 R78): STATUS becomes Halted and pc stays. -/
def execHlt (s : State) : Host.Outcome State Fault Refusal :=
  .next s.halt

/-- LDI (41 R91): both operands are delivered, then OPA is read as a register. -/
def execLdi (a imm : Latch) (s : State) : Host.Outcome State Fault Refusal :=
  conclude s .ldi do
    let x ← deliver s 1 a
    let v ← deliver s 2 imm
    let r ← regIndex s.cfg.nregs x
    .ok (s.writeReg r v)

/-- PRN (41 R92). -/
def execPrn (a : Latch) (s : State) : Host.Outcome State Fault Refusal :=
  conclude s .prn do
    let r ← registerOperand s a
    .ok (s.emit (s.readReg r))

end Sys2Proof.Machine
end

