-- ==== Sys2Proof/Machine/Stack.lean ====
section
/-! DEFINITION. PUSH and POP (43_stack.md). -/

namespace Sys2Proof.Machine

/-- The effective address of PUSH, `sp - 1`, computed before the write (43 R110). -/
def pushAddress (s : State) : Nat := s.sp.toNat - 1

/-- PUSH (43 R110): register check, stack check, then MemWrite below sp, with its own range check, and the decrement. Where that range check raises, which needs a Memory smaller than 256 cells, the value recorded is the address sp - 1 that MemWrite raises (20 R32) and not the sp of 10 R18's StackPush row (DESIGN CHOICE, entry 15). -/
def execPush (a : Latch) (s : State) : Host.Outcome State Fault Refusal :=
  conclude s .push do
    let r ← registerOperand s a
    if s.sp ≤ s.cfg.stackFloor then .error (.outOfBounds .stackPush (s.sp.setWidth 9))
    else
      let t ← memWrite s .stackPush (pushAddress s) (s.readReg r)
      .ok (t.writeSp (s.sp - 1))

/-- POP (43 R111): register check, stack check, then MemRead at sp, with its own range check, and the increment. The rule's 0xFF is the greatest value of sp, whatever MEM_SIZE is. The cell keeps its value. -/
def execPop (a : Latch) (s : State) : Host.Outcome State Fault Refusal :=
  conclude s .pop do
    let r ← registerOperand s a
    if s.sp = 0xFF then .error (.outOfBounds .stackPop (s.sp.setWidth 9))
    else
      let v ← memRead s .stackPop s.sp.toNat
      .ok ((s.writeReg r v).writeSp (s.sp + 1))

end Sys2Proof.Machine
end

