-- ==== Sys2Proof/Machine/Step.lean ====
section
/-! DEFINITION. One step of the fetch-decode-execute loop (40_cycle.md section 7). -/

namespace Sys2Proof.Machine

/-- One step (40 R70 to R78): no step unless Running, then fetch, dispatch lookup, handler. exec holds the operand check, the handler and the PC advance. -/
def step (s : State) : Host.Outcome State Fault Refusal :=
  match s.status with
  | .halted => .fault .halted
  | .faulted => .fault .faulted
  | .running =>
    match fetch s with
    | .error c => .next (s.raise none c)
    | .ok l =>
      match decode s.cfg.opcodes l with
      | .error _ => .next (s.raise (some l.ir) .illegalInstruction)
      | .ok i => exec i s

/-- `s` with the instruction of `nbits` bits `w` in Memory at pc, and Running, so that the next step fetches it. -/
def State.withFetchWord (s : State) (nbits w : Nat) : State :=
  { s with mem := s.mem.place s.cfg.memSize s.pc.toNat (tableBytes nbits w), status := .running }

end Sys2Proof.Machine
end

