-- ==== Sys2Proof/Machine/Assembler.lean ====
section
/-! DEFINITION. The assembler's table (30_encoding.md rule R60): the lines of its syntax, the instruction each one encodes, and how it is written. Host software, no part of a step. -/

namespace Sys2Proof.Machine

/-- A line of assembly (30 R60): registers are R0 to R7, immediates 0..255. -/
inductive Asm where
  | hlt
  | ldi (ra : Fin 8) (imm : Byte)
  | prn (ra : Fin 8)
  | push (ra : Fin 8)
  | pop (ra : Fin 8)
  /-- MUL Ra,Rb. -/
  | mul (ra rb : Fin 8)
  /-- MUL with no operands. -/
  | mulBare
  | add (ra rb : Fin 8)
  | sub (ra rb : Fin 8)
  deriving DecidableEq, Repr

/-- A register number as its operand byte. -/
def registerByte (r : Fin 8) : Byte := BitVec.ofNat 8 r.val

/-- The instruction of a line (30 R60). -/
def Asm.instr : Asm → Instr
  | .hlt => .hlt
  | .ldi ra imm => .ldi (some (registerByte ra)) (some imm)
  | .prn ra => .prn (some (registerByte ra))
  | .push ra => .push (some (registerByte ra))
  | .pop ra => .pop (some (registerByte ra))
  | .mul ra rb => .mul (some (registerByte ra)) (some (registerByte rb))
  | .mulBare => .mul (some 0x00) (some 0x01)
  | .add ra rb => .add (some (registerByte ra)) (some (registerByte rb))
  | .sub ra rb => .sub (some (registerByte ra)) (some (registerByte rb))

/-- The bytes a line encodes as (30 R60). -/
def Asm.bytes (m : OpcodeMap) (l : Asm) : List Byte := encode m l.instr

/-- A register's name, R0 to R7. -/
def registerText (r : Fin 8) : List Char := 'R' :: Nat.toDigits 10 r.val

/-- How a line is written: the mnemonic, a space, then its operands separated by a comma; immediates in decimal (30 R60). -/
def Asm.text : Asm → List Char
  | .hlt => "HLT".toList
  | .ldi ra imm => "LDI ".toList ++ registerText ra ++ [','] ++ Nat.toDigits 10 imm.toNat
  | .prn ra => "PRN ".toList ++ registerText ra
  | .push ra => "PUSH ".toList ++ registerText ra
  | .pop ra => "POP ".toList ++ registerText ra
  | .mul ra rb => "MUL ".toList ++ registerText ra ++ [','] ++ registerText rb
  | .mulBare => "MUL".toList
  | .add ra rb => "ADD ".toList ++ registerText ra ++ [','] ++ registerText rb
  | .sub ra rb => "SUB ".toList ++ registerText ra ++ [','] ++ registerText rb

/-- Text cut at the characters that `p` marks. -/
def splitText (p : Char → Bool) : List Char → List (List Char)
  | [] => [[]]
  | c :: cs =>
    match splitText p cs with
    | [] => [[c]]
    | first :: others => if p c = true then [] :: first :: others else (c :: first) :: others

/-- Text without the spaces around it. -/
def trimText (t : List Char) : List Char :=
  ((t.dropWhile (· == ' ')).reverse.dropWhile (· == ' ')).reverse

/-- A register's name read. -/
def readRegister : List Char → Option (Fin 8)
  | ['R', d] =>
    if h : 48 ≤ d.toNat ∧ d.toNat < 56 then some ⟨d.toNat - 48, by omega⟩ else none
  | _ => none

/-- Decimal digits read, most significant first, after the value `acc` of those already read. -/
def readDecimal (acc : Nat) : List Char → Option Nat
  | [] => some acc
  | d :: ds =>
    if 48 ≤ d.toNat ∧ d.toNat < 58 then readDecimal (10 * acc + (d.toNat - 48)) ds else none

/-- An immediate read: decimal, 0..255. -/
def readImmediate : List Char → Option Byte
  | [] => none
  | d :: ds =>
    match readDecimal 0 (d :: ds) with
    | some v => if v < 256 then some (BitVec.ofNat 8 v) else none
    | none => none

/-- A line of one register operand read. -/
def readOne (make : Fin 8 → Asm) : List (List Char) → Option Asm
  | [a] => (readRegister a).map make
  | _ => none

/-- A line of two register operands read. -/
def readTwo (make : Fin 8 → Fin 8 → Asm) : List (List Char) → Option Asm
  | [a, b] =>
    match readRegister a, readRegister b with
    | some ra, some rb => some (make ra rb)
    | _, _ => none
  | _ => none

/-- A mnemonic and its operands read (30 R60). -/
def readLine (mnemonic : List Char) (operands : List (List Char)) : Option Asm :=
  if mnemonic = "HLT".toList then (if operands = [] then some .hlt else none)
  else if mnemonic = "LDI".toList then
    match operands with
    | [a, b] =>
      match readRegister a, readImmediate b with
      | some ra, some imm => some (.ldi ra imm)
      | _, _ => none
    | _ => none
  else if mnemonic = "PRN".toList then readOne .prn operands
  else if mnemonic = "PUSH".toList then readOne .push operands
  else if mnemonic = "POP".toList then readOne .pop operands
  else if mnemonic = "MUL".toList then
    (if operands = [] then some .mulBare else readTwo .mul operands)
  else if mnemonic = "ADD".toList then readTwo .add operands
  else if mnemonic = "SUB".toList then readTwo .sub operands
  else none

/-- One instruction's text read: the mnemonic up to the first space, then operands between commas. -/
def parseAsmLine (line : List Char) : Option Asm :=
  let t := trimText line
  let operands := trimText (t.dropWhile (· != ' '))
  readLine (t.takeWhile (· != ' ')) (if operands = [] then [] else (splitText (· == ',') operands).map trimText)

/-- Assembly text: instructions separated by a semicolon or a new line, empty ones skipped (30 R60). -/
def parseAsm (text : List Char) : Option (List Asm) :=
  ((splitText (fun c => c == ';' || c == '\n') text).filter fun l => trimText l != []).mapM parseAsmLine

end Sys2Proof.Machine
end

