-- ==== Sys2Proof/Machine/Loader.lean ====
section
/-! DEFINITION. The host's side of program text and output: the loader's line rule (30_encoding.md rule R61, 70_reset_and_hazards.md rule R145) and the rendering of OUT (10_state.md rule R20). Host software, no part of a step. -/

namespace Sys2Proof.Machine

/-- What one line of program text gives (30 R61, 70 R145). -/
inductive LineMeaning where
  /-- The line does not start with 0 or 1. -/
  | skipped
  /-- The line's first 8 characters are this byte. -/
  | byte (b : Byte)
  /-- The line starts with 0 or 1 and its first 8 characters are not 8 binary digits. -/
  | malformed
  deriving DecidableEq, Repr

/-- `MalformedProgram`, the loader's own failure (60 R124). -/
inductive LoadFailure where
  | malformedProgram
  deriving DecidableEq, Repr

/-- A binary digit. -/
def binaryDigit (c : Char) : Option Nat :=
  if c = '0' then some 0 else if c = '1' then some 1 else none

/-- Binary digits, most significant first, after the value `acc` of those already read. -/
def readBinary (acc : Nat) : List Char → Option Nat
  | [] => some acc
  | c :: cs =>
    match binaryDigit c with
    | some d => readBinary (2 * acc + d) cs
    | none => none

/-- One line (70 R145). -/
def parseLine (line : List Char) : LineMeaning :=
  match line with
  | [] => .skipped
  | c :: _ =>
    if (binaryDigit c).isNone then .skipped
    else if line.length < 8 then .malformed
    else
      match readBinary 0 (line.take 8) with
      | some v => .byte (BitVec.ofNat 8 v)
      | none => .malformed

/-- A whole text, line by line: its bytes in order, or MalformedProgram (70 R145). -/
def parseProgram : List (List Char) → Except LoadFailure (List Byte)
  | [] => .ok []
  | line :: lines =>
    match parseLine line with
    | .skipped => parseProgram lines
    | .malformed => .error .malformedProgram
    | .byte b =>
      match parseProgram lines with
      | .ok bs => .ok (b :: bs)
      | .error e => .error e

/-- OUT as the host prints it: each byte in decimal, then the host's own line terminator (10 R20, 93 I19). -/
def renderOut (terminator : List Char) (out : List Byte) : List Char :=
  out.flatMap fun v => Nat.toDigits 10 v.toNat ++ terminator

end Sys2Proof.Machine
end

