-- ==== Sys2Proof/Machine/Run.lean ====
section
/-! DEFINITION. The run (40_cycle.md section 6): steps until STATUS is no longer Running, and what it returns to the host. -/

namespace Sys2Proof.Machine

/-- At most `k` steps; a core that is not Running has none and stays as it is (40 R70, R80). -/
def run : Nat → State → State
  | 0, s => s
  | k + 1, s =>
    match step s with
    | .next t => run k t
    | .fault _ => s
    | .refused _ => s

/-- What a run returns to the host (40 R80). -/
inductive RunResult where
  /-- The run ended well (70 R147). -/
  | halted
  /-- The run ended badly, with the fault record (70 R147). -/
  | faulted (record : FaultRecord)
  deriving DecidableEq, Repr

/-- The result a state stands for; none while it is Running. -/
def State.result (s : State) : Option RunResult :=
  match s.status with
  | .running => none
  | .halted => some .halted
  | .faulted => some (.faulted s.fault)

/-- The most steps any run takes (40 R82): one for each cell of Memory and the one that ends it, 257 by default. -/
def runBound (cfg : Config) : Nat := cfg.memSize + 1

end Sys2Proof.Machine
end

