-- ==== Sys2Proof/Machine/HostPort.lean ====
section
/-! DEFINITION. The core's side of the host interface (70_reset_and_hazards.md rule R146) and the load port (R144). A state read needs no move: State is plain data. -/

namespace Sys2Proof.Machine

/-- The host's moves that act on the core (70 R146). -/
inductive HostMove where
  /-- `reset`. -/
  | reset
  /-- `load_write(addr, byte)`. -/
  | loadWrite (addr : Nat) (b : Byte)
  /-- `step`. -/
  | step
  /-- `run`. -/
  | run
  deriving DecidableEq, Repr

/-- What a move returns (70 R146). -/
inductive HostReply where
  /-- reset returns nothing. -/
  | done
  /-- load_write's ok. -/
  | accepted
  /-- load_write's OutOfBounds. -/
  | outOfBounds
  /-- step's new STATUS. -/
  | status (st : Status)
  /-- run's result. -/
  | ended (r : RunResult)
  deriving DecidableEq, Repr

/-- Before the first step: Running with pc = 0, since a completed step raises pc and any other leaves Running (DEDUCED, entry 5). -/
def State.beforeFirstStep (s : State) : Bool := s.status == .running && s.pc == 0

/-- One write of the load port: STATUS and the fault record are not changed by it (70 R144). -/
def loadWrite (s : State) (addr : Nat) (b : Byte) : State × HostReply :=
  match memWrite s .fetch addr b with
  | .ok t => (t, .accepted)
  | .error _ => (s, .outOfBounds)

/-- The load of program bytes at rising addresses, ended by the first write that Memory rejects (70 R144). -/
def loadFrom (s : State) (addr : Nat) : List Byte → State × HostReply
  | [] => (s, .accepted)
  | b :: bs =>
    match loadWrite s addr b with
    | (t, .accepted) => loadFrom t (addr + 1) bs
    | (t, r) => (t, r)

/-- The load of a program at address 0 (70 R144). -/
def load (s : State) (bytes : List Byte) : State × HostReply := loadFrom s 0 bytes

/-- A host move, or none where the model has no such move (70 R146, 93 I15). -/
def hostMove (s : State) : HostMove → Option (State × HostReply)
  | .reset => some (State.resetWith s.cfg, .done)
  | .loadWrite addr b => if s.beforeFirstStep = true then some (loadWrite s addr b) else none
  | .step =>
    match step s with
    | .next t => some (t, .status t.status)
    | .fault _ => none
    | .refused _ => none
  | .run =>
    match s.status with
    | .running => (run (runBound s.cfg) s).result.map fun r => (run (runBound s.cfg) s, .ended r)
    | .halted => none
    | .faulted => none

end Sys2Proof.Machine
end

