-- ==== Sys2Proof/Safety.lean ====
section
/-! DEFINITION. The words claims use: how a run ends, the invariant of the core, the stack's bound, the first fault of a step, and memory's cells as a reader sees them. -/

namespace Sys2Proof.Machine

/-- A run that ended well (70 R147). -/
def State.endedWell (s : State) : Prop := s.status = .halted

/-- The opcode byte at pc (40 R71). -/
def State.opcodeByte (s : State) : Byte := s.mem.read s.pc.toNat

/-- The operand latch OPA an instruction holds, if it has a first operand byte at all. -/
def opaOf : Instr → Latch
  | .hlt => none
  | .push a => a
  | .pop a => a
  | .prn a => a
  | .ldi a _ => a
  | .mul a _ => a
  | .add a _ => a
  | .sub a _ => a

/-- The operand latch OPB an instruction holds, if it has a second operand byte at all. -/
def opbOf : Instr → Latch
  | .hlt => none
  | .push _ => none
  | .pop _ => none
  | .prn _ => none
  | .ldi _ imm => imm
  | .mul _ b => b
  | .add _ b => b
  | .sub _ b => b

/-- The register an operand byte names, if it names one (10 R13). -/
def namedRegister (s : State) : Latch → List Nat
  | none => []
  | some b => if s.cfg.nregs ≤ b.toNat then [] else [b.toNat]

/-- The destination register of an ALU instruction (10 R11): R0, or the register regA names. -/
def aluDestination (s : State) (a : Latch) : List Nat :=
  match s.cfg.aluOperands with
  | .fixedR0R1 => [0]
  | .fromOperandBytes => namedRegister s a

/-- The state in a build that differs only in ALU_OPERANDS. -/
def State.withAluOperands (s : State) (mode : AluOperands) : State :=
  { s with cfg := { s.cfg with aluOperands := mode } }

/-- The two states read alike at every address outside a list of addresses. -/
def sameMemoryOutside (addrs : List Nat) (s t : State) : Prop :=
  ∀ a, a ∉ addrs → t.mem.read a = s.mem.read a

/-- The two states agree on every register but those listed. -/
def sameRegistersOutside (rs : List Nat) (s t : State) : Prop :=
  ∀ i : Nat, i ∉ rs → t.readReg i = s.readReg i

/-- The rows of 10 R18 and 60 R121 to R123 that a fault record can hold, beside the state it was recorded in. With MEM_SIZE 256 and NREGS 8 the bounds are the rules' 255, 256, 258 and 8, and no sp is MEM_SIZE. -/
def recordLegal (s : State) : Prop :=
  match s.fault.kind with
  | .none => s.fault = FaultRecord.cleared
  | .illegalInstruction =>
    s.fault.place = .fetch ∧ s.fault.opcodeValid = true ∧ s.fault.value = 0 ∧ s.fault.pc.toNat < s.cfg.memSize
  | .unsupportedOperation => False
  | .outOfBounds =>
    match s.fault.place with
    | .fetch =>
      s.fault.opcodeValid = false ∧ s.fault.opcode = 0 ∧ s.fault.value = s.fault.pc ∧
        s.cfg.memSize ≤ s.fault.pc.toNat ∧ s.fault.pc.toNat ≤ s.cfg.memSize + 2
    | .operand => s.fault.opcodeValid = true ∧ s.fault.value.toNat = s.cfg.memSize
    | .register =>
      s.fault.opcodeValid = true ∧ s.cfg.nregs ≤ s.fault.value.toNat ∧ s.fault.value.toNat ≤ 255
    | .stackPush =>
      s.fault.opcodeValid = true ∧ s.fault.value = s.sp.setWidth 9 ∧ s.sp ≤ s.cfg.stackFloor
    | .stackPop =>
      s.fault.opcodeValid = true ∧ s.fault.value = s.sp.setWidth 9 ∧
        (s.sp = 0xFF ∨ s.sp.toNat = s.cfg.memSize)

/-- The invariant of the core: the build legal, Memory canonical, as many registers as the build has, pc at most MEM_SIZE + 2 (258, 10 R14), sp within Memory or just past it, a fault recorded exactly in Faulted and at pc (60 R125), and the record one of the spec's (10 R18). -/
structure State.Inv (s : State) : Prop where
  build : s.cfg.Legal
  memory : s.mem.wf s.cfg.memSize
  registers : s.regs.length = s.cfg.nregs
  pcBound : s.pc.toNat ≤ s.cfg.memSize + 2
  spBound : s.sp.toNat ≤ s.cfg.memSize
  recorded : s.status = .faulted ↔ s.fault.kind ≠ .none
  faultPc : s.status = .faulted → s.fault.pc = s.pc
  record : recordLegal s

/-- What keeps the stack high (43 R113): at most one PUSH per two bytes of program counter. And what keeps it in Memory: sp is at most MEM_SIZE. -/
def State.stackBound (s : State) : Prop :=
  2 * s.cfg.spInit.toNat ≤ 2 * s.sp.toNat + min s.pc.toNat s.cfg.memSize ∧
    s.sp.toNat ≤ s.cfg.memSize

/-- The first fault of a step in the order of 60 R127, from the bytes at pc, or none. `arity` is 30 R55's. The two range checks after those of the stack are MemWrite's and MemRead's (20 R31, R32), which no sp meets with MEM_SIZE 256; the address PUSH's records is the model's choice (entry 15). -/
def firstFault (s : State) : Option Cause :=
  let p := s.pc.toNat
  let ir := s.mem.read p
  let a := s.mem.read (p + 1)
  let b := s.mem.read (p + 2)
  let k := s.cfg.arity ir
  let size := s.cfg.memSize
  if size ≤ p then some (.outOfBounds .fetch s.pc)
  else if s.cfg.dispatches ir = false then some .illegalInstruction
  else if 1 ≤ k ∧ size ≤ p + 1 then some (.outOfBounds .operand (BitVec.ofNat 9 (p + 1)))
  else if 2 ≤ k ∧ size ≤ p + 2 then some (.outOfBounds .operand (BitVec.ofNat 9 (p + 2)))
  else if 1 ≤ k ∧ s.cfg.nregs ≤ a.toNat then some (.outOfBounds .register (a.setWidth 9))
  else if 2 ≤ k ∧ aluFlag ir = true ∧ s.cfg.nregs ≤ b.toNat then some (.outOfBounds .register (b.setWidth 9))
  else if ir = s.cfg.opcodes.push ∧ s.sp ≤ s.cfg.stackFloor then
    some (.outOfBounds .stackPush (s.sp.setWidth 9))
  else if ir = s.cfg.opcodes.pop ∧ s.sp = 0xFF then
    some (.outOfBounds .stackPop (s.sp.setWidth 9))
  else if ir = s.cfg.opcodes.push ∧ size ≤ s.sp.toNat - 1 then
    some (.outOfBounds .stackPush (BitVec.ofNat 9 (s.sp.toNat - 1)))
  else if ir = s.cfg.opcodes.pop ∧ size ≤ s.sp.toNat then
    some (.outOfBounds .stackPop (s.sp.setWidth 9))
  else none

end Sys2Proof.Machine
end

