-- ==== Sys2Proof/Certificates/Slice0/Obligations.lean ====
section
/-! DEFINITION. The statements for the provers, from the numbered rules of spec/. Those over `s.cfg` hold for every build of the core: where a rule writes 255, 256, 257, 258, 7 or 8 they write it from MEM_SIZE and NREGS, which the default build has at 256 and 8 (00 R4). In that build they are the rule's own numbers; for other sizes they are the model's reading (entry 14). `OpcodeMap.Legal` is 92 D2's condition on a replacement OPCODE_MAP and `Config.Legal` adds the sizes' ranges; the default build meets both. -/

open Sys2Proof Sys2Proof.Machine

/-! ### Reset, fetch and the loop -/

/-- 10 R23: every piece of state after reset. -/
def Obligations.ResetLeavesEveryFieldAtItsValue : Prop :=
  State.reset.cfg.memSize = 256 ∧ (∀ a, a ≤ 255 → State.reset.mem.read a = 0) ∧
    State.reset.regs.length = 8 ∧ (∀ i, i ≤ 7 → State.reset.readReg i = 0) ∧
    State.reset.pc = 0 ∧ State.reset.sp = 0xF4 ∧ State.reset.status = .running ∧
    State.reset.status.code = 0 ∧ State.reset.fault.kind.code = 0 ∧
    State.reset.fault.place.code = 0 ∧ State.reset.fault.pc = 0 ∧
    State.reset.fault.opcodeValid = false ∧ State.reset.fault.opcode = 0 ∧
    State.reset.fault.value = 0 ∧ State.reset.out = []

/-- 40 R71, R72: the opcode and both operand bytes are fetched whatever the length; an opcode past the end of Memory faults, an operand past it is Absent and raises nothing. -/
def Obligations.FetchLatchesThreeBytesOrFaultsPastEnd : Prop :=
  (∀ s : State, s.status = .running → s.cfg.memSize ≤ s.pc.toNat →
    step s = .next { s with
      status := .faulted
      fault := { kind := .outOfBounds, place := .fetch, pc := s.pc, opcodeValid := false, opcode := 0, value := s.pc } }) ∧
  (∀ s : State, s.pc.toNat < s.cfg.memSize →
    fetch s = .ok {
      ir := s.mem.read s.pc.toNat
      opa := if s.pc.toNat + 1 < s.cfg.memSize then some (s.mem.read (s.pc.toNat + 1)) else none
      opb := if s.pc.toNat + 2 < s.cfg.memSize then some (s.mem.read (s.pc.toNat + 2)) else none })

/-- 40 section 7: a running core whose bytes at pc decode to an instruction takes that instruction's step, and nothing is added around it: exec advances pc itself. -/
def Obligations.StepRunsTheDecodedInstruction : Prop :=
  ∀ (s : State) (i : Instr), s.status = .running → s.pc.toNat < s.cfg.memSize →
    decode s.cfg.opcodes {
      ir := s.mem.read s.pc.toNat
      opa := if s.pc.toNat + 1 < s.cfg.memSize then some (s.mem.read (s.pc.toNat + 1)) else none
      opb := if s.pc.toNat + 2 < s.cfg.memSize then some (s.mem.read (s.pc.toNat + 2)) else none } = .ok i →
    i.wellFormed = true ∧ step s = exec i s

/-- 60 R122, 40 R74: an opcode with no entry in the dispatch table (no mnemonic has it, or only an unwired ADD or SUB) raises IllegalInstruction, whatever the operand latches hold. -/
def Obligations.UndispatchedOpcodeRaisesIllegalInstruction : Prop :=
  ∀ s : State, s.status = .running → s.pc.toNat < s.cfg.memSize →
    (∀ op, s.cfg.opcodes.code op = s.opcodeByte →
      (op = .add ∨ op = .sub) ∧ s.cfg.wireAddSub = false) →
    step s = .next { s with
      status := .faulted
      fault := { kind := .illegalInstruction, place := .fetch, pc := s.pc, opcodeValid := true, opcode := s.opcodeByte, value := 0 } }

/-- 40 R70, 70 R142: Halted and Faulted have no step and no host move but reset, which makes the core Running with an empty Memory. -/
def Obligations.StoppedCoreIsLeftOnlyByReset : Prop :=
  ∀ s : State, s.status ≠ .running →
    (∀ t, step s ≠ .next t) ∧
      (∀ mv r, hostMove s mv = some r → mv = .reset) ∧
      ∃ t, hostMove s .reset = some (t, .done) ∧ t.status = .running ∧ t.pc = 0 ∧
        ∀ a, t.mem.read a = 0

/-- 40 R77, R78: a step that leaves the core Running advances pc by n + 1, exactly, to at most MEM_SIZE + 2 (258); HLT and faults leave pc. -/
def Obligations.OnlyTheLoopAdvancesPc : Prop :=
  ∀ s t : State, s.cfg.Legal → step s = .next t →
    (t.status = .running →
      t.pc.toNat = s.pc.toNat + (s.opcodeByte.toNat / 64) + 1 ∧ t.pc.toNat ≤ s.cfg.memSize + 2) ∧
      (t.status ≠ .running → t.pc = s.pc)

/-- 10 R17: HLT alone enters Halted, and a step enters nothing but the three named states from Running. -/
def Obligations.OnlyHltEntersHalted : Prop :=
  ∀ s t : State, s.cfg.opcodes.Legal → step s = .next t →
    s.status = .running ∧
      (t.status = .halted ↔ s.pc.toNat < s.cfg.memSize ∧ s.opcodeByte = s.cfg.opcodes.hlt)

/-- 40 R82 (the spec's inference from R71, R77 and R79): from any state at all, MEM_SIZE + 1 steps end the run, and so do 257, and the run returns a result. -/
def Obligations.EveryRunEndsWithin257Steps : Prop :=
  ∀ (s : State) (k : Nat), s.cfg.memSize ≤ 256 → s.cfg.memSize < k →
    (run k s).status ≠ .running ∧ (run k s).result.isSome = true

/-! ### Encoding -/

/-- 30 R54: the dispatch table, row by row: opcode, N, A, length, the arity in either mode, and whether it is dispatched without WIRE_ADD_SUB. -/
def Obligations.DispatchTableMatchesTheSpec : Prop :=
  (∀ row ∈ ([(.hlt, 0x01, 0, false, 1, 0, 0, true), (.push, 0x45, 1, false, 2, 1, 1, true),
      (.pop, 0x46, 1, false, 2, 1, 1, true), (.prn, 0x47, 1, false, 2, 1, 1, true),
      (.ldi, 0x82, 2, false, 3, 2, 2, true), (.mul, 0xA2, 2, true, 3, 0, 2, true),
      (.add, 0xA0, 2, true, 3, 0, 2, false), (.sub, 0xA1, 2, true, 3, 0, 2, false)] :
      List (Op × Byte × Nat × Bool × Nat × Nat × Nat × Bool)),
    OpcodeMap.standard.code row.1 = row.2.1 ∧
    (operandCount row.2.1).toNat = row.2.2.1 ∧
    aluFlag row.2.1 = row.2.2.2.1 ∧
    instrLength row.2.1 = row.2.2.2.2.1 ∧
    Config.standard.arity row.2.1 = row.2.2.2.2.2.1 ∧
    { Config.standard with aluOperands := .fromOperandBytes }.arity row.2.1 = row.2.2.2.2.2.2.1 ∧
    Config.standard.dispatches row.2.1 = row.2.2.2.2.2.2.2 ∧
    { Config.standard with wireAddSub := true }.dispatches row.2.1 = true) ∧
  OpcodeMap.standard.Legal

/-- 30 R56: every byte but the six dispatched ones is illegal, 250 of them, or 248 with WIRE_ADD_SUB. -/
def Obligations.IllegalOpcodeBytesAreTheOthers : Prop :=
  (∀ b : Byte, Config.standard.dispatches b = true ↔
      b = 0x01 ∨ b = 0x45 ∨ b = 0x46 ∨ b = 0x47 ∨ b = 0x82 ∨ b = 0xA2) ∧
    ((List.range 256).filter fun b => !Config.standard.dispatches (BitVec.ofNat 8 b)).length = 250 ∧
    ((List.range 256).filter fun b =>
      !{ Config.standard with wireAddSub := true }.dispatches (BitVec.ofNat 8 b)).length = 248

/-- Words written out from 30 R54's table decode to the instructions they stand for. -/
def Obligations.SampleBytesDecodeToTheirInstructions : Prop :=
  decodeBytes .standard [0b00000001] = .ok .hlt ∧
    decodeBytes .standard [0b10000010, 0b00000011, 0b11111111] = .ok (.ldi (some 3) (some 255)) ∧
    decodeBytes .standard [0b01000101, 0b00000111] = .ok (.push (some 7)) ∧
    decodeBytes .standard [0b10100010, 0b00000000, 0b00000001] = .ok (.mul (some 0) (some 1)) ∧
    decodeBytes .standard [0b11111111] = .error (.illegalOpcode 0xFF) ∧
    decodeBytes .standard [] = .error .noBytes

/-- Decode of encode is the instruction, for every instruction a fetch can give, with every operand value, in every legal OPCODE_MAP. The forms cut short by the end of Memory (entry 6) and what a legal map is (entry 10) are the model's reading. -/
def Obligations.DecodeOfEncodeIsTheInstruction : Prop :=
  ∀ (m : OpcodeMap) (i : Instr), m.Legal → i.wellFormed = true →
    decodeBytes m (encode m i) = .ok i

/-- Encode of decode gives back the bytes decoded, as many of them as the opcode's length takes. What a legal map is, is the model's reading (entry 10). -/
def Obligations.EncodeOfDecodeIsTheBytes : Prop :=
  ∀ (m : OpcodeMap) (ir : Byte) (rest : List Byte) (i : Instr), m.Legal →
    decodeBytes m (ir :: rest) = .ok i →
    i.wellFormed = true ∧ encode m i = (ir :: rest).take (instrLength ir)

/-- 30 R60: the bytes of each line of assembly. -/
def Obligations.AssemblyLinesEncodeAsTabled : Prop :=
  ∀ (ra rb : Fin 8) (imm : Byte),
    Asm.hlt.bytes .standard = [0x01] ∧
    (Asm.ldi ra imm).bytes .standard = [0x82, BitVec.ofNat 8 ra, imm] ∧
    (Asm.prn ra).bytes .standard = [0x47, BitVec.ofNat 8 ra] ∧
    (Asm.push ra).bytes .standard = [0x45, BitVec.ofNat 8 ra] ∧
    (Asm.pop ra).bytes .standard = [0x46, BitVec.ofNat 8 ra] ∧
    (Asm.mul ra rb).bytes .standard = [0xA2, BitVec.ofNat 8 ra, BitVec.ofNat 8 rb] ∧
    Asm.mulBare.bytes .standard = [0xA2, 0x00, 0x01] ∧
    (Asm.add ra rb).bytes .standard = [0xA0, BitVec.ofNat 8 ra, BitVec.ofNat 8 rb] ∧
    (Asm.sub ra rb).bytes .standard = [0xA1, BitVec.ofNat 8 ra, BitVec.ofNat 8 rb]

/-- 30 R60: every line of assembly reads back as it is written. -/
def Obligations.AssemblyTextReadsBack : Prop :=
  ∀ l : Asm, parseAsm l.text = some [l]

/-! ### What each instruction does -/

/-- 41 R90: HLT. -/
def Obligations.HltHaltsAndChangesNothingElse : Prop :=
  encode .standard .hlt = [0x01] ∧
  (∀ s : State, exec .hlt s = .next { s with status := .halted }) ∧
  (∀ s : State, s.cfg.opcodes.Legal → s.status = .running → s.pc.toNat < s.cfg.memSize →
    s.opcodeByte = s.cfg.opcodes.hlt → step s = .next { s with status := .halted })

/-- 41 R91: LDI. -/
def Obligations.LdiLoadsItsImmediate : Prop :=
  (∀ a imm : Byte, encode .standard (.ldi (some a) (some imm)) = [0x82, a, imm]) ∧
  (∀ (s : State) (a imm : Byte), s.cfg.opcodes.Legal → a.toNat < s.cfg.nregs →
    exec (.ldi (some a) (some imm)) s =
      .next { s with regs := s.regs.set a.toNat imm, pc := s.pc + 3 }) ∧
  (∀ (s : State) (imm : Latch), s.pc.toNat + 1 = s.cfg.memSize →
    exec (.ldi none imm) s =
      .next (s.raise (some s.cfg.opcodes.ldi) (.outOfBounds .operand (BitVec.ofNat 9 s.cfg.memSize)))) ∧
  (∀ (s : State) (a : Byte), s.pc.toNat + 2 = s.cfg.memSize →
    exec (.ldi (some a) none) s =
      .next (s.raise (some s.cfg.opcodes.ldi) (.outOfBounds .operand (BitVec.ofNat 9 s.cfg.memSize)))) ∧
  (∀ (s : State) (a imm : Byte), s.cfg.nregs ≤ a.toNat →
    exec (.ldi (some a) (some imm)) s =
      .next (s.raise (some s.cfg.opcodes.ldi) (.outOfBounds .register (a.setWidth 9))))

/-- 41 R92: PRN. -/
def Obligations.PrnEmitsItsRegister : Prop :=
  (∀ a : Byte, encode .standard (.prn (some a)) = [0x47, a]) ∧
  (∀ (s : State) (a : Byte), s.cfg.opcodes.Legal → a.toNat < s.cfg.nregs →
    exec (.prn (some a)) s =
      .next { s with out := s.out ++ [s.readReg a.toNat], pc := s.pc + 2 }) ∧
  (∀ s : State, s.pc.toNat + 1 = s.cfg.memSize →
    exec (.prn none) s =
      .next (s.raise (some s.cfg.opcodes.prn) (.outOfBounds .operand (BitVec.ofNat 9 s.cfg.memSize)))) ∧
  (∀ (s : State) (a : Byte), s.cfg.nregs ≤ a.toNat →
    exec (.prn (some a)) s =
      .next (s.raise (some s.cfg.opcodes.prn) (.outOfBounds .register (a.setWidth 9))))

/-- 42 R104: MUL in the FIXED_R0_R1 mode, whatever its operand latches hold, Absent too. -/
def Obligations.MulFixedMultipliesR0ByR1 : Prop :=
  (∀ a b : Byte, encode .standard (.mul (some a) (some b)) = [0xA2, a, b]) ∧
  (∀ (s : State) (a b : Latch), s.cfg.opcodes.Legal → s.cfg.aluOperands = .fixedR0R1 →
    exec (.mul a b) s =
      .next { s with
        regs := s.regs.set 0 (BitVec.ofNat 8 ((s.readReg 0).toNat * (s.readReg 1).toNat))
        pc := s.pc + 3 })

/-- 42 R105: MUL in the FROM_OPERAND_BYTES mode. -/
def Obligations.MulFromOperandsMultipliesItsRegisters : Prop :=
  (∀ a b : Byte, encode .standard (.mul (some a) (some b)) = [0xA2, a, b]) ∧
  (∀ (s : State) (a b : Byte), a.toNat < s.cfg.nregs → b.toNat < s.cfg.nregs → s.cfg.opcodes.Legal →
    s.cfg.aluOperands = .fromOperandBytes →
    exec (.mul (some a) (some b)) s =
      .next { s with
        regs := s.regs.set a.toNat (BitVec.ofNat 8 ((s.readReg a.toNat).toNat * (s.readReg b.toNat).toNat))
        pc := s.pc + 3 }) ∧
  (∀ (s : State) (b : Latch), s.cfg.aluOperands = .fromOperandBytes → s.pc.toNat + 1 = s.cfg.memSize →
    exec (.mul none b) s =
      .next (s.raise (some s.cfg.opcodes.mul) (.outOfBounds .operand (BitVec.ofNat 9 s.cfg.memSize)))) ∧
  (∀ (s : State) (a : Byte), s.cfg.aluOperands = .fromOperandBytes → s.pc.toNat + 2 = s.cfg.memSize →
    exec (.mul (some a) none) s =
      .next (s.raise (some s.cfg.opcodes.mul) (.outOfBounds .operand (BitVec.ofNat 9 s.cfg.memSize)))) ∧
  (∀ (s : State) (a b : Byte), s.cfg.aluOperands = .fromOperandBytes → s.cfg.nregs ≤ a.toNat →
    exec (.mul (some a) (some b)) s =
      .next (s.raise (some s.cfg.opcodes.mul) (.outOfBounds .register (a.setWidth 9)))) ∧
  (∀ (s : State) (a b : Byte), s.cfg.aluOperands = .fromOperandBytes → a.toNat < s.cfg.nregs → s.cfg.nregs ≤ b.toNat →
    exec (.mul (some a) (some b)) s =
      .next (s.raise (some s.cfg.opcodes.mul) (.outOfBounds .register (b.setWidth 9))))

/-- 42 R106: ADD, wired or not, in either mode. -/
def Obligations.AddAddsWhenWired : Prop :=
  (∀ a b : Byte, encode .standard (.add (some a) (some b)) = [0xA0, a, b]) ∧
  (∀ (s : State) (a b : Latch), s.cfg.wireAddSub = false →
    exec (.add a b) s = .next (s.raise (some s.cfg.opcodes.add) .illegalInstruction)) ∧
  (∀ (s : State) (a b : Latch), s.cfg.opcodes.Legal → s.cfg.wireAddSub = true →
    s.cfg.aluOperands = .fixedR0R1 →
    exec (.add a b) s =
      .next { s with
        regs := s.regs.set 0 (BitVec.ofNat 8 ((s.readReg 0).toNat + (s.readReg 1).toNat))
        pc := s.pc + 3 }) ∧
  (∀ (s : State) (a b : Byte), a.toNat < s.cfg.nregs → b.toNat < s.cfg.nregs → s.cfg.opcodes.Legal →
    s.cfg.wireAddSub = true → s.cfg.aluOperands = .fromOperandBytes →
    exec (.add (some a) (some b)) s =
      .next { s with
        regs := s.regs.set a.toNat (BitVec.ofNat 8 ((s.readReg a.toNat).toNat + (s.readReg b.toNat).toNat))
        pc := s.pc + 3 }) ∧
  (∀ (s : State) (b : Latch), s.cfg.wireAddSub = true →
    s.cfg.aluOperands = .fromOperandBytes → s.pc.toNat + 1 = s.cfg.memSize →
    exec (.add none b) s =
      .next (s.raise (some s.cfg.opcodes.add) (.outOfBounds .operand (BitVec.ofNat 9 s.cfg.memSize)))) ∧
  (∀ (s : State) (a : Byte), s.cfg.wireAddSub = true →
    s.cfg.aluOperands = .fromOperandBytes → s.pc.toNat + 2 = s.cfg.memSize →
    exec (.add (some a) none) s =
      .next (s.raise (some s.cfg.opcodes.add) (.outOfBounds .operand (BitVec.ofNat 9 s.cfg.memSize)))) ∧
  (∀ (s : State) (a b : Byte), s.cfg.wireAddSub = true →
    s.cfg.aluOperands = .fromOperandBytes → s.cfg.nregs ≤ a.toNat →
    exec (.add (some a) (some b)) s =
      .next (s.raise (some s.cfg.opcodes.add) (.outOfBounds .register (a.setWidth 9)))) ∧
  (∀ (s : State) (a b : Byte), s.cfg.wireAddSub = true →
    s.cfg.aluOperands = .fromOperandBytes → a.toNat < s.cfg.nregs → s.cfg.nregs ≤ b.toNat →
    exec (.add (some a) (some b)) s =
      .next (s.raise (some s.cfg.opcodes.add) (.outOfBounds .register (b.setWidth 9))))

/-- 42 R107: SUB, wired or not, in either mode. -/
def Obligations.SubSubtractsWhenWired : Prop :=
  (∀ a b : Byte, encode .standard (.sub (some a) (some b)) = [0xA1, a, b]) ∧
  (∀ (s : State) (a b : Latch), s.cfg.wireAddSub = false →
    exec (.sub a b) s = .next (s.raise (some s.cfg.opcodes.sub) .illegalInstruction)) ∧
  (∀ (s : State) (a b : Latch), s.cfg.opcodes.Legal → s.cfg.wireAddSub = true →
    s.cfg.aluOperands = .fixedR0R1 →
    exec (.sub a b) s =
      .next { s with
        regs := s.regs.set 0 (BitVec.ofNat 8 ((s.readReg 0).toNat + 256 - (s.readReg 1).toNat))
        pc := s.pc + 3 }) ∧
  (∀ (s : State) (a b : Byte), a.toNat < s.cfg.nregs → b.toNat < s.cfg.nregs → s.cfg.opcodes.Legal →
    s.cfg.wireAddSub = true → s.cfg.aluOperands = .fromOperandBytes →
    exec (.sub (some a) (some b)) s =
      .next { s with
        regs := s.regs.set a.toNat
          (BitVec.ofNat 8 ((s.readReg a.toNat).toNat + 256 - (s.readReg b.toNat).toNat))
        pc := s.pc + 3 }) ∧
  (∀ (s : State) (b : Latch), s.cfg.wireAddSub = true →
    s.cfg.aluOperands = .fromOperandBytes → s.pc.toNat + 1 = s.cfg.memSize →
    exec (.sub none b) s =
      .next (s.raise (some s.cfg.opcodes.sub) (.outOfBounds .operand (BitVec.ofNat 9 s.cfg.memSize)))) ∧
  (∀ (s : State) (a : Byte), s.cfg.wireAddSub = true →
    s.cfg.aluOperands = .fromOperandBytes → s.pc.toNat + 2 = s.cfg.memSize →
    exec (.sub (some a) none) s =
      .next (s.raise (some s.cfg.opcodes.sub) (.outOfBounds .operand (BitVec.ofNat 9 s.cfg.memSize)))) ∧
  (∀ (s : State) (a b : Byte), s.cfg.wireAddSub = true →
    s.cfg.aluOperands = .fromOperandBytes → s.cfg.nregs ≤ a.toNat →
    exec (.sub (some a) (some b)) s =
      .next (s.raise (some s.cfg.opcodes.sub) (.outOfBounds .register (a.setWidth 9)))) ∧
  (∀ (s : State) (a b : Byte), s.cfg.wireAddSub = true →
    s.cfg.aluOperands = .fromOperandBytes → a.toNat < s.cfg.nregs → s.cfg.nregs ≤ b.toNat →
    exec (.sub (some a) (some b)) s =
      .next (s.raise (some s.cfg.opcodes.sub) (.outOfBounds .register (b.setWidth 9))))

/-- 43 R110: PUSH. With MEM_SIZE 256 every sp is at most MEM_SIZE. -/
def Obligations.PushStoresBelowTheStackPointer : Prop :=
  (∀ a : Byte, encode .standard (.push (some a)) = [0x45, a]) ∧ Config.standard.stackFloor = 0 ∧
  (∀ (s : State) (a : Byte), a.toNat < s.cfg.nregs → s.cfg.opcodes.Legal → s.mem.wf s.cfg.memSize →
    s.cfg.stackFloor.toNat < s.sp.toNat → s.sp.toNat ≤ s.cfg.memSize →
    ∃ t, exec (.push (some a)) s = .next t ∧
      t = { s with mem := t.mem, sp := s.sp - 1, pc := s.pc + 2 } ∧
      ∀ x, t.mem.read x = if x = s.sp.toNat - 1 then s.readReg a.toNat else s.mem.read x) ∧
  (∀ s : State, s.pc.toNat + 1 = s.cfg.memSize →
    exec (.push none) s =
      .next (s.raise (some s.cfg.opcodes.push) (.outOfBounds .operand (BitVec.ofNat 9 s.cfg.memSize)))) ∧
  (∀ (s : State) (a : Byte), s.cfg.nregs ≤ a.toNat →
    exec (.push (some a)) s =
      .next (s.raise (some s.cfg.opcodes.push) (.outOfBounds .register (a.setWidth 9)))) ∧
  (∀ (s : State) (a : Byte), a.toNat < s.cfg.nregs → s.sp.toNat ≤ s.cfg.stackFloor.toNat →
    exec (.push (some a)) s =
      .next (s.raise (some s.cfg.opcodes.push) (.outOfBounds .stackPush (s.sp.setWidth 9))))

/-- 43 R111: POP. With MEM_SIZE 256 every sp is below MEM_SIZE. -/
def Obligations.PopLoadsFromTheStackPointer : Prop :=
  (∀ a : Byte, encode .standard (.pop (some a)) = [0x46, a]) ∧
  (∀ (s : State) (a : Byte), a.toNat < s.cfg.nregs → s.cfg.opcodes.Legal → s.sp ≠ 0xFF →
    s.sp.toNat < s.cfg.memSize →
    exec (.pop (some a)) s =
      .next { s with
        regs := s.regs.set a.toNat (s.mem.read s.sp.toNat), sp := s.sp + 1, pc := s.pc + 2 }) ∧
  (∀ s : State, s.pc.toNat + 1 = s.cfg.memSize →
    exec (.pop none) s =
      .next (s.raise (some s.cfg.opcodes.pop) (.outOfBounds .operand (BitVec.ofNat 9 s.cfg.memSize)))) ∧
  (∀ (s : State) (a : Byte), s.cfg.nregs ≤ a.toNat →
    exec (.pop (some a)) s =
      .next (s.raise (some s.cfg.opcodes.pop) (.outOfBounds .register (a.setWidth 9)))) ∧
  (∀ (s : State) (a : Byte), a.toNat < s.cfg.nregs → s.sp = 0xFF →
    exec (.pop (some a)) s =
      .next (s.raise (some s.cfg.opcodes.pop) (.outOfBounds .stackPop 0xFF)))

/-- 20 R31, R32: PUSH and POP meet Memory's own range check where sp is past the end of a Memory smaller than 256 cells. No sp is in the default build (the model's reading of MEM_SIZE, entry 14). That PUSH then records sp - 1, where 10 R18 gives sp, is the model's choice (entry 15). -/
def Obligations.StackPastTheEndOfASmallerMemoryFaults : Prop :=
  (∀ (s : State) (a : Byte), a.toNat < s.cfg.nregs → s.cfg.stackFloor.toNat < s.sp.toNat →
    s.cfg.memSize < s.sp.toNat →
    exec (.push (some a)) s =
      .next (s.raise (some s.cfg.opcodes.push)
        (.outOfBounds .stackPush (BitVec.ofNat 9 (s.sp.toNat - 1))))) ∧
  (∀ (s : State) (a : Byte), a.toNat < s.cfg.nregs → s.sp ≠ 0xFF → s.cfg.memSize ≤ s.sp.toNat →
    exec (.pop (some a)) s =
      .next (s.raise (some s.cfg.opcodes.pop) (.outOfBounds .stackPop (s.sp.setWidth 9))))

/-- 42 R100 to R103: sum, difference and product mod 256, with no trace of a carry, borrow or high half; the fourth select code raises UnsupportedOperation(none, 3). -/
def Obligations.AluComputesModulo256 : Prop :=
  ∀ a b : Byte,
    (∃ r, alu 0b00 a b = .ok r ∧ r.toNat = (a.toNat + b.toNat) % 256) ∧
    (∃ r, alu 0b01 a b = .ok r ∧
      r.toNat = if b.toNat ≤ a.toNat then a.toNat - b.toNat else a.toNat + 256 - b.toNat) ∧
    (∃ r, alu 0b10 a b = .ok r ∧ r.toNat = (a.toNat * b.toNat) % 256) ∧
    alu 0b11 a b = .error (.unsupportedOperation 3)

/-- The source's MUL invariant (95 E4): encoded A2 00 01 it gives one and the same next state in both modes of ALU_OPERANDS (but for the mode, which the model carries in State, entry 1): R0 is R0 * R1 mod 256, pc is 3 higher, and nothing else differs from before. -/
def Obligations.MulOfR0AndR1IsTheSameInBothModes : Prop :=
  ∀ s : State, s.cfg.Legal → s.regs.length = s.cfg.nregs →
    ∃ t, exec (.mul (some 0) (some 1)) (s.withAluOperands .fixedR0R1) =
        .next (t.withAluOperands .fixedR0R1) ∧
      exec (.mul (some 0) (some 1)) (s.withAluOperands .fromOperandBytes) =
        .next (t.withAluOperands .fromOperandBytes) ∧
      t = { s with regs := t.regs, pc := s.pc + 3 } ∧
      (t.readReg 0).toNat = ((s.readReg 0).toNat * (s.readReg 1).toNat) % 256 ∧
      t.regs.length = s.regs.length ∧ sameRegistersOutside [0] s t

/-- 10 R13: an index is taken whole, without masking; 0..7 name registers in the default build. -/
def Obligations.RegisterIndexIsCheckedNotMasked : Prop :=
  ∀ (n : Nat) (b : Byte),
    (n ≤ b.toNat → regIndex n b = .error (.outOfBounds .register (b.setWidth 9))) ∧
      (b.toNat < n → regIndex n b = .ok b.toNat) ∧
      ((∃ i, regIndex Config.standard.nregs b = .ok i) ↔ b.toNat ≤ 7)

/-- 40 R75 with 30 R55's arity: each delivered operand is checked, a before b, before the handler runs. -/
def Obligations.DeliveredOperandsAreCheckedInOrder : Prop :=
  ∀ (s : State) (i : Instr), s.cfg.opcodes.Legal → s.cfg.wires i.op = true →
    (1 ≤ s.cfg.arity (s.cfg.opcodes.code i.op) → opaOf i = none →
      exec i s = .next (s.raise (some (s.cfg.opcodes.code i.op)) (.outOfBounds .operand (s.pc + 1)))) ∧
    (2 ≤ s.cfg.arity (s.cfg.opcodes.code i.op) → (opaOf i).isSome = true → opbOf i = none →
      exec i s = .next (s.raise (some (s.cfg.opcodes.code i.op)) (.outOfBounds .operand (s.pc + 2)))) ∧
    (s.cfg.arity (s.cfg.opcodes.code i.op) = 0 → ∀ t, exec i s = .next t → t.status = s.status ∨ i = .hlt)

/-! ### Memory, registers and the stack -/

/-- 20 R31, R32: one byte, checked against Memory's last address, 255 in the default build; a write changes its own cell and nothing else. -/
def Obligations.MemoryReadsWhatWasWritten : Prop :=
  ∀ (s : State) (place : FaultPlace) (a : Nat) (v : Byte), s.mem.wf s.cfg.memSize →
    (s.cfg.memSize ≤ a →
      memRead s place a = .error (.outOfBounds place (BitVec.ofNat 9 a)) ∧
        memWrite s place a v = .error (.outOfBounds place (BitVec.ofNat 9 a))) ∧
    (a < s.cfg.memSize →
      memRead s place a = .ok (s.mem.read a) ∧
        ∃ t, memWrite s place a v = .ok t ∧ t = { s with mem := t.mem } ∧ t.mem.wf t.cfg.memSize ∧
          ∀ x, t.mem.read x = if x = a then v else s.mem.read x) ∧
    (s.cfg = .standard → ((∃ w, memRead s place a = .ok w) ↔ a ≤ 255))

/-- 20 R33: of all steps, only PUSH changes a cell, and only the cell below sp. -/
def Obligations.OnlyPushChangesMemory : Prop :=
  ∀ (s t : State) (a : Nat), s.mem.wf s.cfg.memSize → s.cfg.opcodes.Legal → step s = .next t →
    t.mem.read a ≠ s.mem.read a →
    s.opcodeByte = s.cfg.opcodes.push ∧ t.status = .running ∧ a + 1 = s.sp.toNat ∧
      t.mem.read a = s.readReg (s.mem.read (s.pc.toNat + 1)).toNat

/-- 10 R11: of all steps, a register is changed only by an LDI or POP that names it, or by an ALU instruction whose destination it is. -/
def Obligations.OnlyTheirWritersChangeRegisters : Prop :=
  ∀ (s t : State) (i : Nat), s.cfg.opcodes.Legal → step s = .next t →
    t.readReg i ≠ s.readReg i →
    t.status = .running ∧
      (((s.opcodeByte = s.cfg.opcodes.ldi ∨ s.opcodeByte = s.cfg.opcodes.pop) ∧
          i = (s.mem.read (s.pc.toNat + 1)).toNat) ∨
        (aluFlag s.opcodeByte = true ∧ s.cfg.aluOperands = .fixedR0R1 ∧ i = 0) ∨
        (aluFlag s.opcodeByte = true ∧ s.cfg.aluOperands = .fromOperandBytes ∧
          i = (s.mem.read (s.pc.toNat + 1)).toNat))

/-- 10 R15: PUSH and POP are the only writers of sp, by one, and it never wraps. -/
def Obligations.OnlyPushAndPopMoveTheStackPointer : Prop :=
  ∀ s t : State, s.cfg.opcodes.Legal → step s = .next t →
    t.sp = s.sp ∨
      (s.opcodeByte = s.cfg.opcodes.push ∧ t.status = .running ∧ t.sp.toNat + 1 = s.sp.toNat) ∨
      (s.opcodeByte = s.cfg.opcodes.pop ∧ t.status = .running ∧ t.sp.toNat = s.sp.toNat + 1)

/-- 10 R12: no instruction but PUSH and POP depends on sp, R7 or not: the same step from another sp gives the same state but for sp. -/
def Obligations.OtherInstructionsDoNotSeeTheStackPointer : Prop :=
  ∀ (i : Instr) (s t : State) (v : Byte), i.op ≠ .push → i.op ≠ .pop → exec i s = .next t →
    exec i { s with sp := v } = .next { t with sp := v }

/-- 10 R20: PRN is the only writer of OUT, and appends one byte. -/
def Obligations.OnlyPrnAppendsToOut : Prop :=
  ∀ s t : State, s.cfg.opcodes.Legal → step s = .next t →
    t.out = s.out ∨
      (s.opcodeByte = s.cfg.opcodes.prn ∧ t.status = .running ∧
        t.out = s.out ++ [s.readReg (s.mem.read (s.pc.toNat + 1)).toNat])

/-- 10 R20: no instruction reads OUT: with other earlier output, the same bytes are appended and the rest of the state is the same. -/
def Obligations.NoInstructionReadsOut : Prop :=
  ∀ (i : Instr) (s t : State) (o : List Byte), exec i s = .next t →
    ∃ new, t.out = s.out ++ new ∧ exec i { s with out := o } = .next { t with out := o ++ new }

/-- 20 R44 (the spec's inference from R39 and 40 R72): the operand was latched before the store, so a PUSH over its own bytes stores the register its old operand named; a later fetch of the stored address reads the new byte. -/
def Obligations.PushUsesItsLatchedOperandAndFetchSeesTheStore : Prop :=
  ∀ s t : State, s.mem.wf s.cfg.memSize → s.cfg.opcodes.Legal → s.opcodeByte = s.cfg.opcodes.push →
    step s = .next t → t.status = .running →
    ∀ u : State, u.mem = t.mem → u.cfg = t.cfg →
      u.latchAt (s.sp.toNat - 1) = some (s.readReg (s.mem.read (s.pc.toNat + 1)).toNat) ∧
        (u.pc.toNat = s.sp.toNat - 1 →
          ∃ l, fetch u = .ok l ∧ l.ir = s.readReg (s.mem.read (s.pc.toNat + 1)).toNat)

/-- 95 E2: PUSH then POP of one register restores it and sp, and changes no cell but the one below sp. -/
def Obligations.PushThenPopRestoresRegisterAndStackPointer : Prop :=
  ∀ (s : State) (a : Byte), s.mem.wf s.cfg.memSize → s.cfg.opcodes.Legal → a.toNat < s.cfg.nregs →
    s.cfg.stackFloor.toNat < s.sp.toNat → s.sp.toNat ≤ s.cfg.memSize →
    ∃ t u, exec (.push (some a)) s = .next t ∧ exec (.pop (some a)) t = .next u ∧
      u.regs = s.regs ∧ u.sp = s.sp ∧ u.pc = s.pc + 4 ∧ u.out = s.out ∧
      sameMemoryOutside [s.sp.toNat - 1] s u

/-- 95 E3: pushes and pops nest last-in first-out. -/
def Obligations.NestedPushesPopInReverse : Prop :=
  ∀ (s : State) (a b c d : Byte), s.mem.wf s.cfg.memSize → s.cfg.opcodes.Legal →
    s.regs.length = s.cfg.nregs → (∀ r ∈ [a, b, c, d], r.toNat < s.cfg.nregs) → c ≠ d →
    s.cfg.stackFloor.toNat + 1 < s.sp.toNat → s.sp.toNat ≤ s.cfg.memSize →
    ∃ s1 s2 s3 s4,
      exec (.push (some a)) s = .next s1 ∧ exec (.push (some b)) s1 = .next s2 ∧
      exec (.pop (some c)) s2 = .next s3 ∧ exec (.pop (some d)) s3 = .next s4 ∧
      s4.readReg c.toNat = s.readReg b.toNat ∧ s4.readReg d.toNat = s.readReg a.toNat ∧
      s4.sp = s.sp

/-! ### Frames -/

/-- Frame of LDI, MUL, ADD and SUB: every register but the destination, every byte of Memory, sp, OUT and the parameters are unchanged; STATUS and the fault record are too, or the instruction faulted and changed nothing else. -/
def Obligations.RegisterInstructionsFrame : Prop :=
  ∀ (s t : State) (i : Instr) (dest : List Nat),
    ((∃ a imm, i = .ldi a imm ∧ dest = namedRegister s a) ∨
      (∃ a b, (i = .mul a b ∨ i = .add a b ∨ i = .sub a b) ∧ dest = aluDestination s a)) →
    exec i s = .next t →
    sameRegistersOutside dest s t ∧ sameMemoryOutside [] s t ∧ t.sp = s.sp ∧ t.out = s.out ∧
      t.cfg = s.cfg ∧
      ((t.status = s.status ∧ t.fault = s.fault) ∨
        t = { s with status := .faulted, fault := t.fault })

/-- Frame of HLT and PRN: every register, every byte of Memory, sp, the parameters; HLT keeps OUT, pc and the fault record, and PRN keeps STATUS and the fault record unless it faulted and changed nothing else. -/
def Obligations.HltAndPrnFrame : Prop :=
  ∀ (s t : State) (i : Instr), (i = .hlt ∨ ∃ a, i = .prn a) → exec i s = .next t →
    sameRegistersOutside [] s t ∧ sameMemoryOutside [] s t ∧ t.sp = s.sp ∧ t.cfg = s.cfg ∧
      (i = .hlt → t.out = s.out ∧ t.pc = s.pc ∧ t.fault = s.fault) ∧
      (i ≠ .hlt → (t.status = s.status ∧ t.fault = s.fault) ∨
        t = { s with status := .faulted, fault := t.fault })

/-- Frame of PUSH: every register, OUT and the parameters; every byte of Memory outside the cell at the address the meaning stores to. Completed, it lowers sp by one and keeps STATUS and the fault record; faulted, it changes nothing but those two. -/
def Obligations.PushFrame : Prop :=
  ∀ (s t : State) (a : Latch), s.mem.wf s.cfg.memSize → exec (.push a) s = .next t →
    sameRegistersOutside [] s t ∧ sameMemoryOutside [pushAddress s] s t ∧ t.out = s.out ∧
      t.cfg = s.cfg ∧
      ((t.status = s.status ∧ t.fault = s.fault ∧ t.sp = s.sp - 1 ∧ t.sp.toNat + 1 = s.sp.toNat) ∨
        t = { s with status := .faulted, fault := t.fault })

/-- Frame of POP: every register but the one named, every byte of Memory (the popped cell too), OUT and the parameters. Completed, it raises sp by one and keeps STATUS and the fault record; faulted, it changes nothing but those two. -/
def Obligations.PopFrame : Prop :=
  ∀ (s t : State) (a : Latch), exec (.pop a) s = .next t →
    sameRegistersOutside (namedRegister s a) s t ∧ sameMemoryOutside [] s t ∧ t.out = s.out ∧
      t.cfg = s.cfg ∧
      ((t.status = s.status ∧ t.fault = s.fault ∧ t.sp = s.sp + 1 ∧ t.sp.toNat = s.sp.toNat + 1) ∨
        t = { s with status := .faulted, fault := t.fault })

/-! ### Faults -/

/-- 60 R125: fault entry's record, field by field; and a faulting step writes STATUS and the fault record and nothing else, with its own pc and, where it could be fetched, its own opcode. -/
def Obligations.FaultEntryIsPrecise : Prop :=
  (∀ (s : State) (ir : Byte) (place : FaultPlace) (value : PcWord),
    s.raise (some ir) (.outOfBounds place value) = { s with
      status := .faulted
      fault := { kind := .outOfBounds, place := place, pc := s.pc, opcodeValid := true, opcode := ir, value := value } } ∧
    s.raise (some ir) .illegalInstruction = { s with
      status := .faulted
      fault := { kind := .illegalInstruction, place := .fetch, pc := s.pc, opcodeValid := true, opcode := ir, value := 0 } } ∧
    s.raise none (.outOfBounds .fetch value) = { s with
      status := .faulted
      fault := { kind := .outOfBounds, place := .fetch, pc := s.pc, opcodeValid := false, opcode := 0, value := value } }) ∧
  ∀ s t : State, step s = .next t → t.status = .faulted →
    t = { s with status := .faulted, fault := t.fault } ∧ t.fault.kind ≠ .none ∧
      t.fault.pc = s.pc ∧
      (t.fault.kind ≠ .outOfBounds → t.fault.place.code = 0 ∧ t.fault.value = 0) ∧
      (t.fault.opcodeValid = false ↔ t.fault.kind = .outOfBounds ∧ t.fault.place = .fetch) ∧
      t.fault.opcode = if t.fault.opcodeValid = true then s.opcodeByte else 0

/-- 60 R127: a step faults exactly where the spec's ordered checks find a first fault, and records that one; where they find none it completes.What a PUSH past the end of a Memory smaller than 256 cells records is the model's choice (entry 15). -/
def Obligations.StepRecordsTheFirstFaultInPriorityOrder : Prop :=
  ∀ s : State, s.cfg.Legal → s.status = .running →
    (∀ c, firstFault s = some c →
      step s = .next (s.raise (if s.pc.toNat < s.cfg.memSize then some s.opcodeByte else none) c)) ∧
    (firstFault s = none → ∃ t, step s = .next t ∧ t.status ≠ .faulted)

/-- 60 R123: no program raises UnsupportedOperation, and what its entry would record: the value 3 that the ALU raises it with is not recorded (the model's reading, entry 4). -/
def Obligations.NoStepRaisesUnsupportedOperation : Prop :=
  (∀ s t : State, step s = .next t → t.fault.kind = .unsupportedOperation →
    s.fault.kind = .unsupportedOperation ∧ t.fault = s.fault) ∧
  ∀ (s : State) (ir : Byte) (value : PcWord),
    s.raise (some ir) (.unsupportedOperation value) = { s with
      status := .faulted
      fault := { kind := .unsupportedOperation, place := .fetch, pc := s.pc, opcodeValid := true, opcode := ir, value := 0 } }

/-! ### Invariants -/

/-- The invariant of the core, kept by every step. -/
def Obligations.EveryStepKeepsTheInvariant : Prop :=
  ∀ s t : State, s.Inv → step s = .next t → t.Inv

/-- Reset of every legal build meets the invariant. -/
def Obligations.ResetMeetsTheInvariant : Prop :=
  State.reset.Inv ∧ ∀ cfg : Config, cfg.Legal → (State.resetWith cfg).Inv

/-- 43 R113 (the spec's inference): every step keeps the stack's bound, so sp is never below SP_INIT - MEM_SIZE / 2, which is SP_INIT - 128 in the default build, and never above MEM_SIZE. -/
def Obligations.EveryStepKeepsTheStackBound : Prop :=
  ∀ s t : State, s.cfg.Legal → s.stackBound → step s = .next t →
    t.stackBound ∧ t.cfg = s.cfg ∧ s.cfg.spInit.toNat ≤ t.sp.toNat + s.cfg.memSize / 2 ∧
      s.cfg.spInit.toNat ≤ t.sp.toNat + 128 ∧ t.sp.toNat ≤ s.cfg.memSize

/-- 43 R113 (the spec's inference): the bound holds at reset, and with it a STACK_FLOOR below SP_INIT - MEM_SIZE / 2 (128 in the default build) is never met by a PUSH. -/
def Obligations.BoundedStackNeverFaultsOnPush : Prop :=
  (∀ cfg : Config, cfg.Legal → (State.resetWith cfg).stackBound) ∧
    ∀ s t : State, s.cfg.Legal → s.stackBound →
      s.cfg.stackFloor.toNat + s.cfg.memSize / 2 < s.cfg.spInit.toNat → step s = .next t →
      t.status = .faulted → t.fault.place ≠ .stackPush

/-- 10 R19: parameters are fixed when the core is built: no step changes them (the model carries them in State, entry 1). -/
def Obligations.NoStepChangesTheParameters : Prop :=
  ∀ s t : State, step s = .next t → t.cfg = s.cfg

/-! ### The host -/

/-- 70 R144: a load before the first step writes the program from address 0 and nothing else; more bytes than Memory has cells answer OutOfBounds, with STATUS and the fault record unchanged. -/
def Obligations.LoadPortWritesTheProgramFromZero : Prop :=
  ∀ (s : State) (bytes : List Byte), s.mem.wf s.cfg.memSize →
    (bytes.length ≤ s.cfg.memSize →
      ∃ t, load s bytes = (t, .accepted) ∧ t = { s with mem := t.mem } ∧ t.mem.wf t.cfg.memSize ∧
        ∀ a, t.mem.read a = bytes.getD a (s.mem.read a)) ∧
    (s.cfg.memSize < bytes.length →
      (load s bytes).2 = .outOfBounds ∧ (load s bytes).1.status = s.status ∧
        (load s bytes).1.fault = s.fault)

/-- 70 R146: what each host move does and returns on a Running core; load_write only before the first step, which the model reads off as pc = 0 (entry 5, DEDUCED). -/
def Obligations.HostMovesOnARunningCore : Prop :=
  ∀ (s : State) (addr : Nat) (b : Byte), s.status = .running →
    hostMove s .reset = some (State.resetWith s.cfg, .done) ∧
    (s.pc ≠ 0 → hostMove s (.loadWrite addr b) = none) ∧
    (s.pc = 0 → addr < s.cfg.memSize →
      hostMove s (.loadWrite addr b) = some ({ s with mem := s.mem.write addr b }, .accepted)) ∧
    (s.pc = 0 → s.cfg.memSize ≤ addr →
      hostMove s (.loadWrite addr b) = some (s, .outOfBounds)) ∧
    (∃ t, step s = .next t ∧ hostMove s .step = some (t, .status t.status)) ∧
    (s.cfg.memSize ≤ 256 →
      ∃ t r, run (s.cfg.memSize + 1) s = t ∧ t.result = some r ∧ hostMove s .run = some (t, .ended r))

/-- 70 R145, 30 R61: the loader's line rule. -/
def Obligations.LoaderReadsOneByteALine : Prop :=
  (∀ (b : Byte) (rest : List Char),
    parseLine (((List.range 8).map fun k => if b.getLsbD (7 - k) = true then '1' else '0') ++ rest) = .byte b) ∧
  parseLine [] = .skipped ∧
  (∀ (c : Char) (cs : List Char), c ≠ '0' → c ≠ '1' → parseLine (c :: cs) = .skipped) ∧
  (∀ (c : Char) (cs : List Char), c = '0' ∨ c = '1' →
    ((c :: cs).length < 8 ∨ ∃ d ∈ (c :: cs).take 8, d ≠ '0' ∧ d ≠ '1') →
    parseLine (c :: cs) = .malformed)
end

