-- ==== Sys2Proof/Laws/Decode.lean ====
section
/-! SUPPORT. What the opcode lookup and the decoder answer, said once. -/

namespace Sys2Proof

/-- The list of mnemonics lacks none. -/
theorem Op.mem_all (op : Op) : op ∈ Op.all := by cases op <;> decide

/-- The lookup finds a mnemonic only by its own opcode byte. -/
theorem OpcodeMap.code_of_find {m : OpcodeMap} {ir : Byte} {op : Op}
    (h : m.find ir = some op) : m.code op = ir := by
  simpa using List.find?_some h

/-- The lookup finds nothing exactly when no mnemonic has that opcode byte. -/
theorem OpcodeMap.find_eq_none_iff {m : OpcodeMap} {ir : Byte} :
    m.find ir = none ↔ ∀ op, m.code op ≠ ir := by
  simp only [OpcodeMap.find, List.find?_eq_none, beq_iff_eq]
  exact ⟨fun h op => h op (Op.mem_all op), fun h op _ => h op⟩

/-- In a legal map, a mnemonic is found by its opcode byte. -/
theorem OpcodeMap.find_code {m : OpcodeMap} (h : m.Legal) (op : Op) :
    m.find (m.code op) = some op := by
  obtain ⟨hn, -⟩ := h
  cases hf : m.find (m.code op) with
  | none => exact absurd rfl (OpcodeMap.find_eq_none_iff.1 hf op)
  | some op' =>
    have he := OpcodeMap.code_of_find hf
    exact congrArg _ (List.inj_on_of_nodup_map hn (Op.mem_all op') (Op.mem_all op) he)

/-- In a legal map, an opcode's operand count is its mnemonic's. -/
theorem OpcodeMap.operandCount_code {m : OpcodeMap} (h : m.Legal) (op : Op) :
    (operandCount (m.code op)).toNat = op.slots := (h.2 op (Op.mem_all op)).1

/-- In a legal map, an opcode's ALU flag is its mnemonic's. -/
theorem OpcodeMap.aluFlag_code {m : OpcodeMap} (h : m.Legal) (op : Op) :
    aluFlag (m.code op) = op.isAlu := (h.2 op (Op.mem_all op)).2

/-- The instruction built for a mnemonic is of that mnemonic. -/
@[simp] theorem Op.build_op (opa opb : Latch) (op : Op) : (op.build opa opb).op = op := by
  cases op <;> rfl

/-- A decoded instruction is its mnemonic over the latches, and its opcode is IR. -/
theorem decode_ok {m : OpcodeMap} {l : Latches} {i : Instr} (h : decode m l = .ok i) :
    m.code i.op = l.ir ∧ i = i.op.build l.opa l.opb := by
  simp only [decode] at h
  split at h
  · cases h
    simp [OpcodeMap.code_of_find ‹_›]
  · cases h

/-- The decoder rejects exactly the opcode bytes of no mnemonic. -/
theorem decode_error {m : OpcodeMap} {l : Latches} {e : Reject} (h : decode m l = .error e) :
    e = .illegalOpcode l.ir ∧ ∀ op, m.code op ≠ l.ir := by
  simp only [decode] at h
  split at h
  · cases h
  · cases h
    exact ⟨rfl, OpcodeMap.find_eq_none_iff.1 ‹_›⟩

end Sys2Proof
end

