-- ==== Sys2Proof/Laws/Memory.lean ====
section
/-! SUPPORT. The laws of Memory: a read after a write, and the canonical form, which every memory operation keeps. -/

namespace Sys2Proof.Machine

/-- A strictly rising list's addresses below its first are not listed. -/
theorem Memory.read_eq_zero_of_lt {m : Memory} {a : Nat}
    (h : ∀ c ∈ m, a < c.1) : Memory.read m a = 0 := by
  induction m with
  | nil => rfl
  | cons c m ih =>
    obtain ⟨b, w⟩ := c
    have hb : a ≠ b := Nat.ne_of_lt (h (b, w) (by simp))
    simp [Memory.read, hb, ih fun c hc => h c (by simp [hc])]

/-- The canonical form, one cell at a time. -/
theorem Memory.wf_cons {b : Nat} {w : Byte} {m : Memory} {size : Nat} :
    Memory.wf ((b, w) :: m) size ↔ (∀ c ∈ m, b < c.1) ∧ b < size ∧ w ≠ 0 ∧ Memory.wf m size := by
  simp only [Memory.wf, List.map_cons, List.pairwise_cons, List.mem_map, List.mem_cons]
  constructor
  · rintro ⟨⟨h1, h2⟩, h3⟩
    exact ⟨fun c hc => h1 _ ⟨c, hc, rfl⟩, (h3 _ (.inl rfl)).1, (h3 _ (.inl rfl)).2, h2,
      fun c hc => h3 c (.inr hc)⟩
  · rintro ⟨h1, h2, h3, h4, h5⟩
    refine ⟨⟨?_, h4⟩, ?_⟩
    · rintro _ ⟨c, hc, rfl⟩
      exact h1 c hc
    · rintro c (rfl | hc)
      · exact ⟨h2, h3⟩
      · exact h5 c hc

/-- A write lists no address but its own and those listed before. -/
theorem Memory.mem_write {m : Memory} {a : Nat} {v : Byte} {c : Host.Cell}
    (h : c ∈ Memory.write m a v) : c = (a, v) ∨ c ∈ m := by
  induction m with
  | nil => simp only [Memory.write] at h; split at h <;> simp_all
  | cons d m ih =>
    obtain ⟨b, w⟩ := d
    simp only [Memory.write] at h
    split at h
    · split at h <;> simp_all
    · split at h
      · split at h
        · exact .inr (List.mem_cons_of_mem _ h)
        · rcases List.mem_cons.1 h with rfl | h
          · exact .inl (by simp [*])
          · exact .inr (List.mem_cons_of_mem _ h)
      · rcases List.mem_cons.1 h with rfl | h
        · exact .inr (by simp)
        · rcases ih h with h | h <;> simp [h]

/-- A write within Memory keeps the canonical form. -/
theorem Memory.wf_write {m : Memory} {size a : Nat} {v : Byte} (h : m.wf size) (ha : a < size) :
    (Memory.write m a v).wf size := by
  induction m with
  | nil =>
    simp only [Memory.write]
    split
    · exact h
    · exact Memory.wf_cons.2 ⟨by simp, ha, ‹_›, h⟩
  | cons d m ih =>
    obtain ⟨b, w⟩ := d
    obtain ⟨h1, h2, h3, h4⟩ := Memory.wf_cons.1 h
    simp only [Memory.write]
    split
    · rename_i hab
      split
      · exact h
      · refine Memory.wf_cons.2 ⟨?_, ha, ‹_›, h⟩
        intro c hc
        rcases List.mem_cons.1 hc with rfl | hc
        · exact hab
        · exact Nat.lt_trans hab (h1 c hc)
    · split
      · rename_i hab
        subst hab
        split
        · exact h4
        · exact Memory.wf_cons.2 ⟨h1, ha, ‹_›, h4⟩
      · refine Memory.wf_cons.2 ⟨?_, h2, h3, ih h4⟩
        intro c hc
        rcases Memory.mem_write hc with rfl | hc
        · simp only; omega
        · exact h1 c hc

/-- A read after a write, over a canonical memory. -/
theorem Memory.read_write {m : Memory} {size a : Nat} {v : Byte} (h : m.wf size) (x : Nat) :
    Memory.read (Memory.write m a v) x = if x = a then v else Memory.read m x := by
  induction m with
  | nil =>
    simp only [Memory.write]
    split <;> simp_all [Memory.read]
  | cons d m ih =>
    obtain ⟨b, w⟩ := d
    obtain ⟨h1, _, _, h4⟩ := Memory.wf_cons.1 h
    have below : ∀ y, y ≤ b → Memory.read m y = 0 := fun y hy =>
      Memory.read_eq_zero_of_lt fun c hc => Nat.lt_of_le_of_lt hy (h1 c hc)
    simp only [Memory.write]
    split
    · rename_i hab
      split
      · by_cases hx : x = a
        · subst hx
          simp [Memory.read, Nat.ne_of_lt hab, below x (by omega), *]
        · simp [hx]
      · by_cases hx : x = a <;> simp [Memory.read, hx]
    · split
      · rename_i hab
        subst hab
        split
        · by_cases hx : x = a
          · subst hx
            simp [below x (Nat.le_refl x), *]
          · simp [Memory.read, hx]
        · by_cases hx : x = a <;> simp [Memory.read, hx]
      · by_cases hx : x = b
        · subst hx
          have : x ≠ a := by omega
          simp [Memory.read, this]
        · simp [Memory.read, hx, ih h4]

/-- Placing bytes keeps the canonical form. -/
theorem Memory.wf_place {m : Memory} {size : Nat} (h : m.wf size) (addr : Nat) (bs : List Byte) :
    (Memory.place m size addr bs).wf size := by
  induction bs generalizing m addr with
  | nil => exact h
  | cons b bs ih =>
    simp only [Memory.place]
    split
    · exact ih h _
    · exact ih (Memory.wf_write h (by omega)) _

/-- An address past the end is not listed in a canonical memory. -/
theorem Memory.read_past_end {m : Memory} {size : Nat} (h : m.wf size) {a : Nat} (ha : size ≤ a) :
    Memory.read m a = 0 := by
  induction m with
  | nil => rfl
  | cons c m ih =>
    obtain ⟨b, w⟩ := c
    obtain ⟨_, h2, _, h4⟩ := Memory.wf_cons.1 h
    have : a ≠ b := by omega
    simp [Memory.read, this, ih h4]

/-- Equal canonical memories are those that read alike. -/
theorem Memory.ext {m m' : Memory} {size : Nat} (h : m.wf size) (h' : m'.wf size)
    (hr : ∀ a, Memory.read m a = Memory.read m' a) : m = m' := by
  induction m generalizing m' with
  | nil =>
    cases m' with
    | nil => rfl
    | cons c m' =>
      obtain ⟨b, w⟩ := c
      exact absurd (by simpa [Memory.read] using (hr b).symm) (Memory.wf_cons.1 h').2.2.1
  | cons c m ih =>
    obtain ⟨b, w⟩ := c
    obtain ⟨h1, _, h3, h4⟩ := Memory.wf_cons.1 h
    cases m' with
    | nil => exact absurd (by simpa [Memory.read] using hr b) h3
    | cons c' m' =>
      obtain ⟨b', w'⟩ := c'
      obtain ⟨h1', _, h3', h4'⟩ := Memory.wf_cons.1 h'
      have low : ∀ {n : Memory} {x y : Nat}, (∀ c ∈ n, y < c.1) → x ≤ y → Memory.read n x = 0 :=
        fun hn hx => Memory.read_eq_zero_of_lt fun c hc => Nat.lt_of_le_of_lt hx (hn c hc)
      have hbb : b = b' := by
        rcases Nat.lt_trichotomy b b' with hlt | heq | hgt
        · have := hr b
          simp [Memory.read, Nat.ne_of_lt hlt, low h1' (Nat.le_of_lt hlt)] at this
          exact absurd this h3
        · exact heq
        · have := hr b'
          simp [Memory.read, Nat.ne_of_lt hgt, low h1 (Nat.le_of_lt hgt)] at this
          exact absurd this.symm h3'
      subst hbb
      have hw : w = w' := by simpa [Memory.read] using hr b
      subst hw
      refine congrArg _ (ih h4 h4' fun a => ?_)
      by_cases ha : a = b
      · subst ha
        rw [low h1 (Nat.le_refl a), low h1' (Nat.le_refl a)]
      · simpa [Memory.read, ha] using hr a

end Sys2Proof.Machine
end

