-- ==== Sys2Proof/Laws/State.lean ====
section
/-! SUPPORT. One lemma per field per update of State: true by unfolding once, so that no later proof unfolds a record update. -/

namespace Sys2Proof.Machine

section WriteReg
variable (s : State) (i : Nat) (v : Byte)
@[simp] theorem writeReg_cfg : (s.writeReg i v).cfg = s.cfg := rfl
@[simp] theorem writeReg_mem : (s.writeReg i v).mem = s.mem := rfl
@[simp] theorem writeReg_regs : (s.writeReg i v).regs = s.regs.set i v := rfl
@[simp] theorem writeReg_pc : (s.writeReg i v).pc = s.pc := rfl
@[simp] theorem writeReg_sp : (s.writeReg i v).sp = s.sp := rfl
@[simp] theorem writeReg_status : (s.writeReg i v).status = s.status := rfl
@[simp] theorem writeReg_fault : (s.writeReg i v).fault = s.fault := rfl
@[simp] theorem writeReg_out : (s.writeReg i v).out = s.out := rfl
end WriteReg

section WriteSp
variable (s : State) (v : Byte)
@[simp] theorem writeSp_cfg : (s.writeSp v).cfg = s.cfg := rfl
@[simp] theorem writeSp_mem : (s.writeSp v).mem = s.mem := rfl
@[simp] theorem writeSp_regs : (s.writeSp v).regs = s.regs := rfl
@[simp] theorem writeSp_pc : (s.writeSp v).pc = s.pc := rfl
@[simp] theorem writeSp_sp : (s.writeSp v).sp = v := rfl
@[simp] theorem writeSp_status : (s.writeSp v).status = s.status := rfl
@[simp] theorem writeSp_fault : (s.writeSp v).fault = s.fault := rfl
@[simp] theorem writeSp_out : (s.writeSp v).out = s.out := rfl
end WriteSp

section Emit
variable (s : State) (v : Byte)
@[simp] theorem emit_cfg : (s.emit v).cfg = s.cfg := rfl
@[simp] theorem emit_mem : (s.emit v).mem = s.mem := rfl
@[simp] theorem emit_regs : (s.emit v).regs = s.regs := rfl
@[simp] theorem emit_pc : (s.emit v).pc = s.pc := rfl
@[simp] theorem emit_sp : (s.emit v).sp = s.sp := rfl
@[simp] theorem emit_status : (s.emit v).status = s.status := rfl
@[simp] theorem emit_fault : (s.emit v).fault = s.fault := rfl
@[simp] theorem emit_out : (s.emit v).out = s.out ++ [v] := rfl
end Emit

section Halt
variable (s : State)
@[simp] theorem halt_cfg : s.halt.cfg = s.cfg := rfl
@[simp] theorem halt_mem : s.halt.mem = s.mem := rfl
@[simp] theorem halt_regs : s.halt.regs = s.regs := rfl
@[simp] theorem halt_pc : s.halt.pc = s.pc := rfl
@[simp] theorem halt_sp : s.halt.sp = s.sp := rfl
@[simp] theorem halt_status : s.halt.status = .halted := rfl
@[simp] theorem halt_fault : s.halt.fault = s.fault := rfl
@[simp] theorem halt_out : s.halt.out = s.out := rfl
end Halt

section Advance
variable (s : State) (n : BitVec 2)
@[simp] theorem advance_cfg : (s.advance n).cfg = s.cfg := rfl
@[simp] theorem advance_mem : (s.advance n).mem = s.mem := rfl
@[simp] theorem advance_regs : (s.advance n).regs = s.regs := rfl
@[simp] theorem advance_pc : (s.advance n).pc = s.pc + n.setWidth 9 + 1 := rfl
@[simp] theorem advance_sp : (s.advance n).sp = s.sp := rfl
@[simp] theorem advance_status : (s.advance n).status = s.status := rfl
@[simp] theorem advance_fault : (s.advance n).fault = s.fault := rfl
@[simp] theorem advance_out : (s.advance n).out = s.out := rfl
end Advance

section Raise
variable (s : State) (ir : Option Byte) (c : Cause)
@[simp] theorem raise_cfg : (s.raise ir c).cfg = s.cfg := rfl
@[simp] theorem raise_mem : (s.raise ir c).mem = s.mem := rfl
@[simp] theorem raise_regs : (s.raise ir c).regs = s.regs := rfl
@[simp] theorem raise_pc : (s.raise ir c).pc = s.pc := rfl
@[simp] theorem raise_sp : (s.raise ir c).sp = s.sp := rfl
@[simp] theorem raise_status : (s.raise ir c).status = .faulted := rfl
@[simp] theorem raise_fault : (s.raise ir c).fault = faultRecord s.pc ir c := rfl
@[simp] theorem raise_out : (s.raise ir c).out = s.out := rfl
end Raise

section FaultRecord
variable (pc : PcWord) (ir : Option Byte) (c : Cause)
@[simp] theorem faultRecord_kind : (faultRecord pc ir c).kind = c.kind := rfl
@[simp] theorem faultRecord_place : (faultRecord pc ir c).place = c.place := rfl
@[simp] theorem faultRecord_pc : (faultRecord pc ir c).pc = pc := rfl
@[simp] theorem faultRecord_opcodeValid : (faultRecord pc ir c).opcodeValid = ir.isSome := rfl
@[simp] theorem faultRecord_opcode : (faultRecord pc ir c).opcode = ir.getD 0 := rfl
@[simp] theorem faultRecord_value : (faultRecord pc ir c).value = c.value := rfl
end FaultRecord

/-- A register read sees only the register file. -/
theorem readReg_of_regs_eq {s t : State} (h : s.regs = t.regs) (i : Nat) :
    s.readReg i = t.readReg i := by
  simp [State.readReg, h]

/-- A register written reads as written. -/
theorem readReg_writeReg_self (s : State) {i : Nat} (v : Byte) (h : i < s.regs.length) :
    (s.writeReg i v).readReg i = v := by
  simp [State.readReg, h]

/-- A register not written keeps its value. -/
theorem readReg_writeReg_ne (s : State) {i j : Nat} (v : Byte) (h : j ≠ i) :
    (s.writeReg i v).readReg j = s.readReg j := by
  simp [State.readReg, List.getElem?_set_ne (Ne.symm h)]

/-- A register written with its own value is as it was. -/
theorem set_readReg (s : State) (i : Nat) : s.regs.set i (s.readReg i) = s.regs := by
  by_cases h : i < s.regs.length
  · simp [State.readReg, h]
  · exact List.set_eq_of_length_le (Nat.le_of_not_lt h)

end Sys2Proof.Machine
end

