-- ==== Sys2Proof/Laws/Ops.lean ====
section
/-! SUPPORT. For each shared operation, everything it can answer, said once: later proofs cite these and unfold nothing. -/

namespace Sys2Proof.Machine

/-- A read within Memory answers the cell. -/
theorem memRead_of_lt (s : State) (place : FaultPlace) {a : Nat} (h : a < s.cfg.memSize) :
    memRead s place a = .ok (s.mem.read a) := by
  simp [memRead, Nat.not_le.2 h]

/-- A read past the end raises OutOfBounds at the caller's place. -/
theorem memRead_of_ge (s : State) (place : FaultPlace) {a : Nat} (h : s.cfg.memSize ≤ a) :
    memRead s place a = .error (.outOfBounds place (BitVec.ofNat 9 a)) := by
  simp [memRead, h]

/-- A write within Memory writes the cell and nothing else. -/
theorem memWrite_of_lt (s : State) (place : FaultPlace) {a : Nat} (v : Byte) (h : a < s.cfg.memSize) :
    memWrite s place a v = .ok { s with mem := s.mem.write a v } := by
  simp [memWrite, Nat.not_le.2 h]

/-- A write past the end raises OutOfBounds at the caller's place. -/
theorem memWrite_of_ge (s : State) (place : FaultPlace) {a : Nat} (v : Byte) (h : s.cfg.memSize ≤ a) :
    memWrite s place a v = .error (.outOfBounds place (BitVec.ofNat 9 a)) := by
  simp [memWrite, h]

/-- A latch is the byte at its address. -/
theorem latchAt_of_lt (s : State) {a : Nat} (h : a < s.cfg.memSize) :
    s.latchAt a = some (s.mem.read a) := by
  simp [State.latchAt, memRead_of_lt s _ h]

/-- A latch past the end is Absent. -/
theorem latchAt_of_ge (s : State) {a : Nat} (h : s.cfg.memSize ≤ a) : s.latchAt a = none := by
  simp [State.latchAt, memRead_of_ge s _ h]

/-- The operand fetch as 40 R72 writes it. -/
theorem latchAt_eq (s : State) (a : Nat) :
    s.latchAt a = if a < s.cfg.memSize then some (s.mem.read a) else none := by
  split
  · exact latchAt_of_lt s ‹_›
  · exact latchAt_of_ge s (by omega)

/-- A handler goes on after a value. -/
@[simp] theorem ok_bind {α β : Type} (x : α) (f : α → Except Cause β) :
    (Except.ok x >>= f) = f x := rfl

/-- A handler ends at the first fault raised. -/
@[simp] theorem error_bind {α β : Type} (c : Cause) (f : α → Except Cause β) :
    (Except.error c >>= f) = .error c := rfl

/-- A present operand is delivered. -/
@[simp] theorem deliver_some (s : State) (k : PcWord) (v : Byte) :
    deliver s k (some v) = .ok v := rfl

/-- An Absent operand raises OutOfBounds(Operand). -/
@[simp] theorem deliver_none (s : State) (k : PcWord) :
    deliver s k none = .error (.outOfBounds .operand (s.pc + k)) := rfl

/-- An index that names a register is taken as it is. -/
theorem regIndex_of_lt {n : Nat} {b : Byte} (h : b.toNat < n) : regIndex n b = .ok b.toNat := by
  simp [regIndex, Nat.not_le.2 h]

/-- An index that names none raises OutOfBounds(Register). -/
theorem regIndex_of_ge {n : Nat} {b : Byte} (h : n ≤ b.toNat) :
    regIndex n b = .error (.outOfBounds .register (b.setWidth 9)) := by
  simp [regIndex, h]

/-- A one-operand handler's register, or its first fault: Absent before out of range. -/
theorem registerOperand_eq (s : State) (a : Latch) :
    registerOperand s a =
      match a with
      | none => .error (.outOfBounds .operand (s.pc + 1))
      | some x => regIndex s.cfg.nregs x := by
  cases a <;> rfl

/-- In FIXED_R0_R1 an ALU instruction works on R0 and R1, whatever its latches. -/
theorem aluRegisters_fixed {s : State} (h : s.cfg.aluOperands = .fixedR0R1) (a b : Latch) :
    aluRegisters s a b = .ok (0, 1) := by
  simp [aluRegisters, h]

/-- In FROM_OPERAND_BYTES an ALU instruction checks operand a, operand b, register a, register b. -/
theorem aluRegisters_from {s : State} (h : s.cfg.aluOperands = .fromOperandBytes) (a b : Latch) :
    aluRegisters s a b =
      match a, b with
      | none, _ => .error (.outOfBounds .operand (s.pc + 1))
      | some _, none => .error (.outOfBounds .operand (s.pc + 2))
      | some x, some y =>
        match regIndex s.cfg.nregs x, regIndex s.cfg.nregs y with
        | .error c, _ => .error c
        | .ok _, .error c => .error c
        | .ok ra, .ok rb => .ok (ra, rb) := by
  cases a with
  | none => simp [aluRegisters, h]
  | some x =>
    cases b with
    | none => simp [aluRegisters, h]
    | some y =>
      simp only [aluRegisters, h, deliver_some, ok_bind]
      cases regIndex s.cfg.nregs x with
      | error c => rfl
      | ok ra => cases regIndex s.cfg.nregs y <;> rfl

/-- A sum narrowed: the exact sum's low eight bits. -/
theorem trunc8_add (a b : Byte) :
    trunc8 ((a.toNat : Int) + (b.toNat : Int)) = BitVec.ofNat 8 (a.toNat + b.toNat) := by
  rw [← Int.natCast_add, trunc8, BitVec.ofInt_natCast]

/-- A product narrowed: the exact product's low eight bits. -/
theorem trunc8_mul (a b : Byte) :
    trunc8 ((a.toNat : Int) * (b.toNat : Int)) = BitVec.ofNat 8 (a.toNat * b.toNat) := by
  rw [← Int.natCast_mul, trunc8, BitVec.ofInt_natCast]

/-- A difference narrowed: 256 is borrowed where it is negative. -/
theorem trunc8_sub (a b : Byte) :
    trunc8 ((a.toNat : Int) - (b.toNat : Int)) = BitVec.ofNat 8 (a.toNat + 256 - b.toNat) := by
  apply BitVec.eq_of_toNat_eq
  simp only [trunc8, BitVec.toNat_ofInt, BitVec.toNat_ofNat]
  have := a.isLt
  have := b.isLt
  omega

/-- ADD's select code sums (42 R101). -/
theorem alu_selAdd (a b : Byte) : alu selAdd a b = .ok (trunc8 ((a.toNat : Int) + (b.toNat : Int))) := by
  simp [alu]

/-- SUB's select code subtracts (42 R102). -/
theorem alu_selSub (a b : Byte) : alu selSub a b = .ok (trunc8 ((a.toNat : Int) - (b.toNat : Int))) := by
  simp [alu, selSub, selAdd]

/-- MUL's select code multiplies (42 R103). -/
theorem alu_selMul (a b : Byte) : alu selMul a b = .ok (trunc8 ((a.toNat : Int) * (b.toNat : Int))) := by
  simp [alu, selMul, selSub, selAdd]

/-- In a legal map, the advance past a mnemonic's opcode is its length. -/
theorem advance_code {m : OpcodeMap} (h : m.Legal) (op : Op) (s : State) :
    s.advance (operandCount (m.code op)) = { s with pc := s.pc + BitVec.ofNat 9 (op.slots + 1) } := by
  have hw : (operandCount (m.code op)).setWidth 9 = BitVec.ofNat 9 op.slots := by
    apply BitVec.eq_of_toNat_eq
    rw [BitVec.toNat_setWidth, OpcodeMap.operandCount_code h op, BitVec.toNat_ofNat]
  have hs : BitVec.ofNat 9 op.slots + 1 = BitVec.ofNat 9 (op.slots + 1) := by cases op <;> rfl
  rw [State.advance, hw, BitVec.add_assoc, hs]

/-- What a handler's end answers, case by case: it always answers a next state. -/
theorem conclude_next {s t : State} {op : Op} {r : Except Cause State}
    (h : conclude s op r = .next t) :
    (∃ c, r = .error c ∧ t = s.raise (some (s.cfg.opcodes.code op)) c) ∨
      ∃ u, r = .ok u ∧ t = u.advance (operandCount (s.cfg.opcodes.code op)) := by
  cases r with
  | error c => exact .inl ⟨c, rfl, by simpa [conclude] using h.symm⟩
  | ok u => exact .inr ⟨u, rfl, by simpa [conclude] using h.symm⟩

/-- A fetch answers the latches of the bytes at pc, or faults past the end. -/
theorem fetch_of_lt {s : State} (h : s.pc.toNat < s.cfg.memSize) :
    fetch s = .ok { ir := s.mem.read s.pc.toNat, opa := s.latchAt (s.pc.toNat + 1), opb := s.latchAt (s.pc.toNat + 2) } := by
  simp [fetch, memRead_of_lt s _ h]

/-- A fetch past the end raises OutOfBounds(Fetch, pc). -/
theorem fetch_of_ge {s : State} (h : s.cfg.memSize ≤ s.pc.toNat) :
    fetch s = .error (.outOfBounds .fetch s.pc) := by
  simp [fetch, memRead_of_ge s _ h]

/-- A running core whose opcode is a mnemonic's runs that mnemonic over the latches. -/
theorem step_of_code {s : State} {op : Op} (hs : s.status = .running) (hp : s.pc.toNat < s.cfg.memSize)
    (hm : s.cfg.opcodes.Legal) (ho : s.mem.read s.pc.toNat = s.cfg.opcodes.code op) :
    step s = exec (op.build (s.latchAt (s.pc.toNat + 1)) (s.latchAt (s.pc.toNat + 2))) s := by
  simp only [step, hs, fetch_of_lt hp, decode, ho, OpcodeMap.find_code hm op]

/-- Everything a step can do when it answers a next state. -/
theorem step_next {s t : State} (h : step s = .next t) :
    s.status = .running ∧
      ((s.cfg.memSize ≤ s.pc.toNat ∧ t = s.raise none (.outOfBounds .fetch s.pc)) ∨
        (s.pc.toNat < s.cfg.memSize ∧ (∀ op, s.cfg.opcodes.code op ≠ s.mem.read s.pc.toNat) ∧
          t = s.raise (some (s.mem.read s.pc.toNat)) .illegalInstruction) ∨
        (s.pc.toNat < s.cfg.memSize ∧ ∃ op, s.cfg.opcodes.code op = s.mem.read s.pc.toNat ∧
          exec (op.build (s.latchAt (s.pc.toNat + 1)) (s.latchAt (s.pc.toNat + 2))) s = .next t)) := by
  simp only [step] at h
  split at h
  · cases h
  · cases h
  · refine ⟨‹_›, ?_⟩
    by_cases hp : s.pc.toNat < s.cfg.memSize
    · rw [fetch_of_lt hp] at h
      simp only at h
      split at h
      · exact .inr (.inl ⟨hp, (decode_error ‹_›).2, by simpa using h.symm⟩)
      · obtain ⟨h1, h2⟩ := decode_ok ‹_›
        rw [h2] at h
        exact .inr (.inr ⟨hp, _, h1, h⟩)
    · rw [fetch_of_ge (by omega)] at h
      exact .inl ⟨by omega, by simpa using h.symm⟩

/-- Every instruction answers a next state: a completed one, HLT's, or a fault entered. -/
theorem exec_answers (i : Instr) (s : State) : ∃ t, exec i s = .next t := by
  have hc : ∀ op r, ∃ t, conclude s op r = .next t := by
    intro op r
    cases r <;> exact ⟨_, rfl⟩
  cases i with
  | hlt => exact ⟨_, rfl⟩
  | push a => exact hc _ _
  | pop a => exact hc _ _
  | prn a => exact hc _ _
  | ldi a imm => exact hc _ _
  | mul a b => exact hc _ _
  | add a b => exact hc _ _
  | sub a b => exact hc _ _

end Sys2Proof.Machine
end

