-- ==== Sys2Proof/Laws/PerInstr.lean ====
section
/-! SUPPORT. Statements made per instruction, one lemma per constructor: the encoding of a complete instruction is as long as its opcode says. -/

namespace Sys2Proof.Laws

/-- A complete instruction's encoding has the length its opcode gives it, in every legal OPCODE_MAP (30 R52). -/
def EncodeLength.Statement (i : Instr) : Prop :=
  ∀ m : OpcodeMap, m.Legal → i.complete = true →
    (encode m i).length = instrLength (m.code i.op)

/-- The shape of every case: as many operand bytes as the mnemonic has slots. -/
theorem EncodeLength.of_slots {i : Instr}
    (h : i.complete = true → i.operandBytes.length = i.op.slots) : EncodeLength.Statement i := by
  intro m hm hi
  simp [encode, instrLength, OpcodeMap.operandCount_code hm, h hi]

/-- One operand slot holds one byte. -/
theorem latchBytes_one {a : Latch} (h : a.isSome = true) : (latchBytes a none).length = 1 := by
  cases a with
  | none => cases h
  | some x => rfl

/-- Two operand slots hold two bytes. -/
theorem latchBytes_two {a b : Latch} (h : (a.isSome && b.isSome) = true) :
    (latchBytes a b).length = 2 := by
  cases a with
  | none => cases h
  | some x =>
    cases b with
    | none => cases h
    | some y => rfl

theorem EncodeLength.hlt : EncodeLength.Statement .hlt := of_slots fun _ => rfl

theorem EncodeLength.push (a : Latch) : EncodeLength.Statement (.push a) := of_slots latchBytes_one

theorem EncodeLength.pop (a : Latch) : EncodeLength.Statement (.pop a) := of_slots latchBytes_one

theorem EncodeLength.prn (a : Latch) : EncodeLength.Statement (.prn a) := of_slots latchBytes_one

theorem EncodeLength.ldi (a imm : Latch) : EncodeLength.Statement (.ldi a imm) := of_slots latchBytes_two

theorem EncodeLength.mul (a b : Latch) : EncodeLength.Statement (.mul a b) := of_slots latchBytes_two

theorem EncodeLength.add (a b : Latch) : EncodeLength.Statement (.add a b) := of_slots latchBytes_two

theorem EncodeLength.sub (a b : Latch) : EncodeLength.Statement (.sub a b) := of_slots latchBytes_two

end Sys2Proof.Laws
end

