-- ==== Sys2Proof/Laws/Step.lean ====
section
/-! SUPPORT. What an instruction and a step can do, said once: every state they can lead to, and every fault they can raise. Later proofs take these cases apart and unfold no meaning. -/

namespace Sys2Proof.Machine

/-- A handler that completes gave a value at each part. -/
theorem bind_eq_ok {α β : Type} {x : Except Cause α} {f : α → Except Cause β} {u : β}
    (h : (x >>= f) = .ok u) : ∃ a, x = .ok a ∧ f a = .ok u := by
  cases x with
  | error c => cases h
  | ok a => exact ⟨a, rfl, h⟩

/-- A handler that faults did so at its first faulting part. -/
theorem bind_eq_error {α β : Type} {x : Except Cause α} {f : α → Except Cause β} {c : Cause}
    (h : (x >>= f) = .error c) : x = .error c ∨ ∃ a, x = .ok a ∧ f a = .error c := by
  cases x with
  | error c' =>
    have hc : (Except.error c' : Except Cause β) = .error c := h
    cases hc
    exact .inl rfl
  | ok a => exact .inr ⟨a, rfl, h⟩

/-- A register index taken is the operand byte. -/
theorem regIndex_eq_ok {n : Nat} {b : Byte} {r : Nat} (h : regIndex n b = .ok r) :
    r = b.toNat ∧ b.toNat < n := by
  simp only [regIndex] at h
  split at h
  · cases h
  · cases h
    exact ⟨rfl, by omega⟩

/-- A register index rejected is an operand byte that names no register. -/
theorem regIndex_eq_error {n : Nat} {b : Byte} {c : Cause} (h : regIndex n b = .error c) :
    c = .outOfBounds .register (b.setWidth 9) ∧ n ≤ b.toNat := by
  simp only [regIndex] at h
  split at h
  · cases h
    exact ⟨rfl, ‹_›⟩
  · cases h

/-- A one-operand handler's register is the operand present. -/
theorem registerOperand_eq_ok {s : State} {a : Latch} {r : Nat} (h : registerOperand s a = .ok r) :
    ∃ x, a = some x ∧ r = x.toNat ∧ x.toNat < s.cfg.nregs := by
  cases a with
  | none => cases h
  | some x => exact ⟨x, rfl, regIndex_eq_ok h⟩

/-- An ALU instruction's registers are R0 and R1, or those of the two operands present. -/
theorem aluRegisters_eq_ok {s : State} {a b : Latch} {p : Nat × Nat}
    (h : aluRegisters s a b = .ok p) :
    (s.cfg.aluOperands = .fixedR0R1 ∧ p = (0, 1)) ∨
      (s.cfg.aluOperands = .fromOperandBytes ∧ ∃ x y, a = some x ∧ b = some y ∧
        p.1 = x.toNat ∧ p.2 = y.toNat ∧ x.toNat < s.cfg.nregs ∧ y.toNat < s.cfg.nregs) := by
  cases hf : s.cfg.aluOperands with
  | fixedR0R1 =>
    rw [aluRegisters_fixed hf] at h
    cases h
    exact .inl ⟨rfl, rfl⟩
  | fromOperandBytes =>
    simp only [aluRegisters, hf] at h
    obtain ⟨x, hx, h1⟩ := bind_eq_ok h
    obtain ⟨y, hy, h2⟩ := bind_eq_ok h1
    obtain ⟨ra, hra, h3⟩ := bind_eq_ok h2
    obtain ⟨rb, hrb, h4⟩ := bind_eq_ok h3
    cases h4
    cases a <;> cases hx
    cases b <;> cases hy
    obtain ⟨ha, ha8⟩ := regIndex_eq_ok hra
    obtain ⟨hb, hb8⟩ := regIndex_eq_ok hrb
    exact .inr ⟨rfl, _, _, rfl, rfl, ha, hb, ha8, hb8⟩

/-- An ALU handler that completes writes the ALU's result to the first register. -/
theorem aluHandler_eq_ok {s u : State} {sel : BitVec 2} {a b : Latch}
    (h : aluHandler sel a b s = .ok u) :
    ∃ p v, aluRegisters s a b = .ok p ∧ alu sel (s.readReg p.1) (s.readReg p.2) = .ok v ∧
      u = s.writeReg p.1 v := by
  obtain ⟨p, hp, h1⟩ := bind_eq_ok h
  obtain ⟨v, hv, h2⟩ := bind_eq_ok h1
  cases h2
  exact ⟨p, v, hp, hv, rfl⟩

/-- Every state an instruction can lead to. -/
inductive Effect (s : State) : Instr → State → Prop
  | halted : Effect s .hlt s.halt
  | faulted (i : Instr) (c : Cause) (hi : i ≠ .hlt) :
    Effect s i (s.raise (some (s.cfg.opcodes.code i.op)) c)
  | loaded (a imm : Byte) (h : a.toNat < s.cfg.nregs) :
    Effect s (.ldi (some a) (some imm))
      ((s.writeReg a.toNat imm).advance (operandCount (s.cfg.opcodes.code .ldi)))
  | emitted (a : Byte) (h : a.toNat < s.cfg.nregs) :
    Effect s (.prn (some a))
      ((s.emit (s.readReg a.toNat)).advance (operandCount (s.cfg.opcodes.code .prn)))
  | pushed (a : Byte) (h : a.toNat < s.cfg.nregs) (hs : s.cfg.stackFloor < s.sp)
      (hm : pushAddress s < s.cfg.memSize) :
    Effect s (.push (some a))
      (({ s with mem := s.mem.write (pushAddress s) (s.readReg a.toNat) }.writeSp (s.sp - 1)).advance
        (operandCount (s.cfg.opcodes.code .push)))
  | popped (a : Byte) (h : a.toNat < s.cfg.nregs) (hs : s.sp ≠ 0xFF) (hm : s.sp.toNat < s.cfg.memSize) :
    Effect s (.pop (some a))
      (((s.writeReg a.toNat (s.mem.read s.sp.toNat)).writeSp (s.sp + 1)).advance
        (operandCount (s.cfg.opcodes.code .pop)))
  | computed (i : Instr) (a b : Latch) (v : Byte) (p : Nat × Nat)
      (hi : i = .mul a b ∨ i = .add a b ∨ i = .sub a b) (hp : aluRegisters s a b = .ok p) :
    Effect s i ((s.writeReg p.1 v).advance (operandCount (s.cfg.opcodes.code i.op)))

/-- A read that answers a byte is within Memory and answers the cell. -/
theorem memRead_eq_ok {s : State} {place : FaultPlace} {a : Nat} {v : Byte}
    (h : memRead s place a = .ok v) : a < s.cfg.memSize ∧ v = s.mem.read a := by
  simp only [memRead] at h
  split at h
  · cases h
  · cases h
    exact ⟨by omega, rfl⟩

/-- A write that completes is within Memory and writes the cell. -/
theorem memWrite_eq_ok {s u : State} {place : FaultPlace} {a : Nat} {v : Byte}
    (h : memWrite s place a v = .ok u) : a < s.cfg.memSize ∧ u = { s with mem := s.mem.write a v } := by
  simp only [memWrite] at h
  split at h
  · cases h
  · cases h
    exact ⟨by omega, rfl⟩

/-- An instruction that answers a next state has one of the effects. -/
theorem exec_effect {i : Instr} {s t : State} (h : exec i s = .next t) : Effect s i t := by
  cases i with
  | hlt =>
    cases h
    exact .halted
  | ldi a imm =>
    rcases conclude_next h with ⟨c, _, rfl⟩ | ⟨u, hr, rfl⟩
    · exact .faulted (.ldi a imm) c (by simp)
    · obtain ⟨x, hx, h1⟩ := bind_eq_ok hr
      obtain ⟨v, hv, h2⟩ := bind_eq_ok h1
      obtain ⟨r, hrr, h3⟩ := bind_eq_ok h2
      clear hr h1 h2
      cases h3
      cases a <;> cases hx
      cases imm <;> cases hv
      obtain ⟨hval, hlt⟩ := regIndex_eq_ok hrr
      subst hval
      exact .loaded _ _ hlt
  | prn a =>
    rcases conclude_next h with ⟨c, _, rfl⟩ | ⟨u, hr, rfl⟩
    · exact .faulted (.prn a) c (by simp)
    · obtain ⟨r, hx, h1⟩ := bind_eq_ok hr
      obtain ⟨x, rfl, hval, hlt⟩ := registerOperand_eq_ok hx
      clear hr
      cases h1
      subst hval
      exact .emitted _ hlt
  | push a =>
    rcases conclude_next h with ⟨c, _, rfl⟩ | ⟨u, hr, rfl⟩
    · exact .faulted (.push a) c (by simp)
    · obtain ⟨r, hx, h1⟩ := bind_eq_ok hr
      obtain ⟨x, rfl, hval, hlt⟩ := registerOperand_eq_ok hx
      clear hr
      subst hval
      split at h1
      · cases h1
      · rename_i hs
        obtain ⟨v, hv, h2⟩ := bind_eq_ok h1
        clear h1
        obtain ⟨hm, rfl⟩ := memWrite_eq_ok hv
        cases h2
        exact .pushed _ hlt (BitVec.not_le.1 hs) hm
  | pop a =>
    rcases conclude_next h with ⟨c, _, rfl⟩ | ⟨u, hr, rfl⟩
    · exact .faulted (.pop a) c (by simp)
    · obtain ⟨r, hx, h1⟩ := bind_eq_ok hr
      obtain ⟨x, rfl, hval, hlt⟩ := registerOperand_eq_ok hx
      clear hr
      subst hval
      split at h1
      · cases h1
      · rename_i hs
        obtain ⟨v, hv, h2⟩ := bind_eq_ok h1
        clear h1
        obtain ⟨hm, rfl⟩ := memRead_eq_ok hv
        cases h2
        exact .popped _ hlt hs hm
  | mul a b =>
    rcases conclude_next h with ⟨c, _, rfl⟩ | ⟨u, hr, rfl⟩
    · exact .faulted (.mul a b) c (by simp)
    · obtain ⟨p, v, hp, _, rfl⟩ := aluHandler_eq_ok hr
      exact .computed (.mul a b) a b v p (by simp) hp
  | add a b =>
    rcases conclude_next h with ⟨c, _, rfl⟩ | ⟨u, hr, rfl⟩
    · exact .faulted (.add a b) c (by simp)
    · obtain ⟨_, _, h1⟩ := bind_eq_ok hr
      obtain ⟨p, v, hp, _, rfl⟩ := aluHandler_eq_ok h1
      exact .computed (.add a b) a b v p (by simp) hp
  | sub a b =>
    rcases conclude_next h with ⟨c, _, rfl⟩ | ⟨u, hr, rfl⟩
    · exact .faulted (.sub a b) c (by simp)
    · obtain ⟨_, _, h1⟩ := bind_eq_ok hr
      obtain ⟨p, v, hp, _, rfl⟩ := aluHandler_eq_ok h1
      exact .computed (.sub a b) a b v p (by simp) hp

/-- A step that answers a next state faulted at the fetch, at the lookup, or had an effect of the instruction its opcode names. -/
theorem step_effect {s t : State} (h : step s = .next t) :
    s.status = .running ∧
      ((s.cfg.memSize ≤ s.pc.toNat ∧ t = s.raise none (.outOfBounds .fetch s.pc)) ∨
        (s.pc.toNat < s.cfg.memSize ∧ (∀ op, s.cfg.opcodes.code op ≠ s.mem.read s.pc.toNat) ∧
          t = s.raise (some (s.mem.read s.pc.toNat)) .illegalInstruction) ∨
        (s.pc.toNat < s.cfg.memSize ∧ ∃ op, s.cfg.opcodes.code op = s.mem.read s.pc.toNat ∧
          Effect s (op.build (s.latchAt (s.pc.toNat + 1)) (s.latchAt (s.pc.toNat + 2))) t)) := by
  obtain ⟨h1, h2 | h2 | ⟨h2, op, h3, h4⟩⟩ := step_next h
  · exact ⟨h1, .inl h2⟩
  · exact ⟨h1, .inr (.inl h2)⟩
  · exact ⟨h1, .inr (.inr ⟨h2, op, h3, exec_effect h4⟩)⟩

/-- A latch that is present is the byte at its address. -/
theorem latchAt_eq_some {s : State} {a : Nat} {x : Byte} (h : s.latchAt a = some x) :
    a < s.cfg.memSize ∧ s.mem.read a = x := by
  rw [latchAt_eq] at h
  split at h
  · exact ⟨‹_›, by simpa using h⟩
  · cases h

/-- The advance from within Memory is exact: pc does not wrap. -/
theorem advance_pc_toNat {s : State} (n : BitVec 2) (h : s.pc.toNat ≤ 255) :
    (s.advance n).pc.toNat = s.pc.toNat + n.toNat + 1 := by
  have := n.isLt
  simp [BitVec.toNat_add]
  omega

/-- In a legal map, two mnemonics with one opcode are one. -/
theorem code_injective {m : OpcodeMap} (h : m.Legal) {op op' : Op} (he : m.code op = m.code op') :
    op = op' := by
  have hf := OpcodeMap.find_code h op
  rw [he, OpcodeMap.find_code h op'] at hf
  exact (Option.some.inj hf).symm

end Sys2Proof.Machine
end

