-- ==== Sys2Proof/Tests/Slice0.lean ====
section
/-! SUPPORT. The model's own tests: words and vectors of 95_test_vectors.md (its row is named beside each), one step each, and for every statement with hypotheses a witness that meets them. -/

namespace Sys2Proof.Tests

open Sys2Proof Sys2Proof.Machine

/-! ### Helpers -/

/-- Reset with bytes in Memory from an address on, and pc there. -/
def startAt (addr : Nat) (bytes : List Byte) : State :=
  { State.reset with mem := Memory.place [] 256 addr bytes, pc := BitVec.ofNat 9 addr }

/-- Reset with a program at 0. -/
def start (bytes : List Byte) : State := startAt 0 bytes

/-- Another build of the same state. -/
def built (mode : AluOperands) (wired : Bool) (s : State) : State :=
  { s with cfg := { s.cfg with aluOperands := mode, wireAddSub := wired } }

/-- A smaller build of the same state. -/
def sized (cells registers : Nat) (s : State) : State :=
  { s with cfg := { s.cfg with memSize := cells, nregs := registers }, regs := List.replicate registers 0 }

/-- What one step shows of the next state. -/
def seen {α : Type} (f : State → α) (s : State) : Option α :=
  match step s with
  | .next t => some (f t)
  | .fault _ => none
  | .refused _ => none

/-- STATUS and the fault record, its fields in 95's order "KIND/WHERE, PC, OPC, VAL". -/
def faultSeen (s : State) : Status × FaultRecord := (s.status, s.fault)

/-- The state after a step. -/
def after (s : State) : State :=
  match step s with
  | .next t => t
  | .fault _ => s
  | .refused _ => s

/-! ### Well-formedness and decoding -/

theorem test_ldi_ill_formed : (Instr.ldi none (some 5)).wellFormed = false := by decide
theorem test_mul_ill_formed : (Instr.mul none (some 1)).wellFormed = false := by decide
theorem test_add_ill_formed : (Instr.add none (some 1)).wellFormed = false := by decide
theorem test_sub_ill_formed : (Instr.sub none (some 1)).wellFormed = false := by decide
theorem test_ldi_well_formed : (Instr.ldi (some 8) none).wellFormed = true := by decide

theorem test_decode_hlt : decodeBytes .standard [0b00000001] = .ok .hlt := rfl
theorem test_decode_push : decodeBytes .standard [0b01000101, 0b00000111] = .ok (.push (some 7)) := rfl
theorem test_decode_pop : decodeBytes .standard [0b01000110, 0b00000010] = .ok (.pop (some 2)) := rfl
theorem test_decode_prn : decodeBytes .standard [0b01000111, 0b00000000] = .ok (.prn (some 0)) := rfl
theorem test_decode_ldi : decodeBytes .standard [0b10000010, 0b00000011, 0b11111111] = .ok (.ldi (some 3) (some 255)) := rfl
theorem test_decode_mul : decodeBytes .standard [0b10100010, 0b00000010, 0b00001001] = .ok (.mul (some 2) (some 9)) := rfl
theorem test_decode_add : decodeBytes .standard [0b10100000, 0b00000000, 0b00001100] = .ok (.add (some 0) (some 12)) := rfl
theorem test_decode_sub : decodeBytes .standard [0b10100001, 0b00000001, 0b00000000] = .ok (.sub (some 1) (some 0)) := rfl
theorem test_decode_at_the_end : decodeBytes .standard [0b10100010] = .ok (.mul none none) := rfl
theorem test_decode_illegal : decodeBytes .standard [0b11111111] = .error (.illegalOpcode 0xFF) := rfl
theorem test_decode_no_bytes : decodeBytes .standard [] = .error .noBytes := rfl
theorem test_decode_table_word : decodeTableWord 24 0x050382 = some (.ldi (some 3) (some 5)) := rfl
theorem test_decode_table_word_short : decodeTableWord 8 0x45 = some (.push (some 0)) := rfl

/-! ### Vectors: expected values are those of 95_test_vectors.md -/

/-- E7. -/
theorem test_illegal_opcode : seen faultSeen (start [0xFF]) = some (.faulted, ⟨.illegalInstruction, .fetch, 0, true, 0xFF, 0⟩) := by decide
/-- F3. -/
theorem test_fetch_past_end : seen faultSeen { State.reset with pc := 258 } = some (.faulted, ⟨.outOfBounds, .fetch, 258, false, 0, 258⟩) := by decide
/-- F6: illegal comes before Operand. -/
theorem test_illegal_before_operand : seen faultSeen (startAt 255 [0xFF]) = some (.faulted, ⟨.illegalInstruction, .fetch, 255, true, 0xFF, 0⟩) := by decide
/-- H3. -/
theorem test_hlt_at_255 : seen (fun t => (t.status, t.pc)) (startAt 255 [0x01]) = some (.halted, 255) := by decide
/-- L3. -/
theorem test_ldi_r7 : seen (fun t => (t.readReg 7, t.sp, t.pc)) (start [0x82, 0x07, 0x09]) = some (9, 0xF4, 3) := by decide
/-- L8: Operand comes before Register. -/
theorem test_ldi_operand_first : seen faultSeen (startAt 254 [0x82, 0x08]) = some (.faulted, ⟨.outOfBounds, .operand, 254, true, 0x82, 256⟩) := by decide
/-- P4. -/
theorem test_prn_at_254 : seen (fun t => (t.out, t.pc)) { startAt 254 [0x47, 0x00] with regs := (List.replicate 8 0).set 0 3 } = some ([3], 256) := by decide
/-- P3. -/
theorem test_prn_register_9 : seen faultSeen (start [0x47, 0x09]) = some (.faulted, ⟨.outOfBounds, .register, 0, true, 0x47, 9⟩) := by decide
/-- S8: the latched operand was 0x00, so R0 is stored over it. -/
theorem test_push_over_own_operand : seen (fun t => (t.mem.read 1, t.sp, t.pc)) { start [0x45, 0x00] with sp := 2, regs := (List.replicate 8 0).set 0 5 } = some (5, 1, 2) := by decide
/-- S3. -/
theorem test_push_at_0 : seen faultSeen { start [0x45, 0x00] with sp := 0 } = some (.faulted, ⟨.outOfBounds, .stackPush, 0, true, 0x45, 0⟩) := by decide
/-- O3. -/
theorem test_pop_at_FE : seen (fun t => (t.readReg 6, t.sp)) { start [0x46, 0x06] with sp := 0xFE, mem := [(0, 0x46), (1, 0x06), (0xFE, 0x11)] } = some (0x11, 0xFF) := by decide
/-- O5: Register comes before StackPop. -/
theorem test_pop_register_first : seen faultSeen { start [0x46, 0x08] with sp := 0xFF } = some (.faulted, ⟨.outOfBounds, .register, 0, true, 0x46, 8⟩) := by decide
/-- M6: the operand bytes are not read. -/
theorem test_mul_fixed : seen (fun t => (t.readReg 0, t.readReg 2, t.pc)) { start [0xA2, 0x02, 0x09] with regs := [3, 4, 100, 0, 0, 0, 0, 0] } = some (12, 100, 3) := by decide
/-- M14: a before b. -/
theorem test_mul_register_order : seen faultSeen (built .fromOperandBytes false (start [0xA2, 0x09, 0x08])) = some (.faulted, ⟨.outOfBounds, .register, 0, true, 0xA2, 9⟩) := by decide
/-- A1. -/
theorem test_add_not_wired : seen faultSeen (start [0xA0, 0x00, 0x01]) = some (.faulted, ⟨.illegalInstruction, .fetch, 0, true, 0xA0, 0⟩) := by decide
/-- A7. -/
theorem test_add_doubles : seen (fun t => (t.readReg 2, t.status)) (built .fromOperandBytes true { start [0xA0, 0x02, 0x02] with regs := (List.replicate 8 0).set 2 128 }) = some (0, .running) := by decide
/-- A9. -/
theorem test_sub_from_operands : seen (fun t => (t.readReg 1, t.readReg 0)) (built .fromOperandBytes true { start [0xA1, 0x01, 0x00] with regs := [5, 7, 0, 0, 0, 0, 0, 0] }) = some (2, 5) := by decide
/-- A6. -/
theorem test_sub_fixed : seen (fun t => t.readReg 0) (built .fixedR0R1 true { start [0xA1, 0x00, 0x01] with regs := [0, 1, 0, 0, 0, 0, 0, 0] }) = some 255 := by decide
/-- 00 R4, MEM_SIZE a parameter: with 16 cells the fetch at 16 is the one past the end. -/
theorem test_fetch_past_sixteen_cells : seen faultSeen (sized 16 8 { State.reset with pc := 16 }) = some (.faulted, ⟨.outOfBounds, .fetch, 16, false, 0, 16⟩) := by decide
/-- MEM_SIZE 16: an LDI at 14 has no second operand. -/
theorem test_operand_past_sixteen_cells : seen faultSeen (sized 16 8 (startAt 14 [0x82, 0x00])) = some (.faulted, ⟨.outOfBounds, .operand, 14, true, 0x82, 16⟩) := by decide
/-- 00 R4, NREGS a parameter: with 4 registers R3 is the last. -/
theorem test_last_of_four_registers : seen (fun t => t.regs) (sized 256 4 (start [0x82, 0x03, 0x09])) = some [0, 0, 0, 9] := by decide
/-- NREGS 4: operand byte 4 names no register. -/
theorem test_no_fifth_register : seen faultSeen (sized 256 4 (start [0x82, 0x04, 0x09])) = some (.faulted, ⟨.outOfBounds, .register, 0, true, 0x82, 4⟩) := by decide
/-- 42 R100: the select code 0b11, and what its entry would record (60 R123). -/
theorem test_unsupported_operation : alu 0b11 1 2 = .error (.unsupportedOperation 3) ∧ (State.reset.raise (some 0xA2) (.unsupportedOperation 3)).fault = ⟨.unsupportedOperation, .fetch, 0, true, 0xA2, 0⟩ := ⟨rfl, rfl⟩
/-- 2.6, rows (200, 100) and (8, 9). -/
theorem test_alu_rows : alu selAdd 200 100 = .ok 44 ∧ alu selSub 8 9 = .ok 255 ∧ alu selMul 200 100 = .ok 32 := ⟨rfl, rfl, rfl⟩
/-- 00 R6. -/
theorem test_trunc8_negative : trunc8 (-2) = 254 := by decide
/-- H4. -/
theorem test_no_step_when_halted : step { State.reset with status := .halted } = .fault .halted := rfl
/-- The first step after reset runs a placed word. -/
theorem test_fetch_word : seen (fun t => (t.readReg 3, t.pc)) (State.reset.withFetchWord 24 0x2A0382) = some (0x2A, 3) := by decide
/-- E9. -/
theorem test_loader_lines : parseLine "10000010  LDI".toList = .byte 0x82 ∧ parseLine "# print 8".toList = .skipped ∧ parseLine "0101".toList = .malformed ∧ parseLine "0000000x".toList = .malformed ∧ parseLine "10000010101".toList = .byte 0x82 := by decide
/-- 10 R20: 0 shows as 0 and 255 as 255. -/
theorem test_render_out : renderOut ['\n'] [0, 255] = ['0', '\n', '2', '5', '5', '\n'] := by decide
/-- 30 R60, the document's own line. -/
theorem test_assembler_text : (Asm.ldi 0 8).text = "LDI R0,8".toList := by decide
/-- The document's section 8 program as text and as bytes (95 E6). -/
theorem test_assembler_program :
    (parseAsm "LDI R0,8; PRN R0; HLT".toList).map (fun ls => ls.flatMap (Asm.bytes .standard)) =
      some [0x82, 0x00, 0x08, 0x47, 0x00, 0x01] := by decide

/-! ### Witnesses: for each statement with hypotheses, and each clause of it, values that meet them together -/

theorem legal_standard : OpcodeMap.standard.Legal := by decide

/-- A build with both options on. -/
def wiredFrom (s : State) : State := built .fromOperandBytes true s

theorem witness_FetchLatchesThreeBytesOrFaultsPastEnd :
    (∃ s : State, s.status = .running ∧ s.pc = 256 ∧ s.cfg.memSize ≤ s.pc.toNat) ∧
      ∃ s : State, s.pc = 255 ∧ s.pc.toNat < s.cfg.memSize :=
  ⟨⟨{ State.reset with pc := 256 }, by decide⟩, ⟨{ State.reset with pc := 255 }, by decide⟩⟩

theorem witness_StepRunsTheDecodedInstruction :
    ∃ (s : State) (i : Instr), s.status = .running ∧ s.pc.toNat < s.cfg.memSize ∧
      decode s.cfg.opcodes {
        ir := s.mem.read s.pc.toNat
        opa := if s.pc.toNat + 1 < s.cfg.memSize then some (s.mem.read (s.pc.toNat + 1)) else none
        opb := if s.pc.toNat + 2 < s.cfg.memSize then some (s.mem.read (s.pc.toNat + 2)) else none } = .ok i :=
  ⟨startAt 254 [0xA2, 0x00], .mul (some 0) none, by decide, by decide, rfl⟩

theorem witness_UndispatchedOpcodeRaisesIllegalInstruction :
    ∃ s : State, s.status = .running ∧ s.pc.toNat < s.cfg.memSize ∧
      ∀ op, s.cfg.opcodes.code op = s.opcodeByte → (op = .add ∨ op = .sub) ∧ s.cfg.wireAddSub = false :=
  ⟨start [0xA0, 0x00, 0x01], by decide, by decide, fun op => by cases op <;> decide⟩

theorem witness_StoppedCoreIsLeftOnlyByReset :
    (∃ s : State, s.status = .halted ∧ s.status ≠ .running) ∧
      ∃ s : State, s.status = .faulted ∧ s.status ≠ .running :=
  ⟨⟨{ State.reset with status := .halted }, by decide⟩, ⟨{ State.reset with status := .faulted }, by decide⟩⟩

/-- For the statements about any legal build's step: one that goes on Running, here a PRN at 254. -/
theorem witness_OnlyTheLoopAdvancesPc :
    (∃ s t : State, s.cfg.Legal ∧ step s = .next t ∧ t.status = .running) ∧
      ∃ s t : State, s.cfg.Legal ∧ step s = .next t ∧ t.status ≠ .running :=
  ⟨⟨startAt 254 [0x47, 0x00], _, by decide, rfl, by decide⟩, ⟨start [0x01], _, by decide, rfl, by decide⟩⟩

theorem witness_OnlyHltEntersHalted :
    (∃ s t : State, s.cfg.opcodes.Legal ∧ step s = .next t ∧ t.status = .halted) ∧
      ∃ s t : State, s.cfg.opcodes.Legal ∧ step s = .next t ∧ t.status = .faulted :=
  ⟨⟨startAt 255 [0x01], _, by decide, rfl, by decide⟩, ⟨start [0x00], _, by decide, rfl, by decide⟩⟩

theorem witness_EveryRunEndsWithin257Steps :
    (∃ (s : State) (k : Nat), s.cfg.memSize ≤ 256 ∧ s.cfg.memSize < k ∧ k = 257) ∧
      ∃ (s : State) (k : Nat), s.cfg.memSize ≤ 256 ∧ s.cfg.memSize < k ∧ k = 17 :=
  ⟨⟨State.reset, 257, by decide⟩, ⟨sized 16 8 State.reset, 17, by decide⟩⟩

theorem witness_DecodeOfEncodeIsTheInstruction :
    ∃ (m : OpcodeMap) (i : Instr), m.Legal ∧ i.wellFormed = true ∧ i = .sub (some 255) none :=
  ⟨.standard, .sub (some 255) none, by decide⟩

theorem witness_EncodeOfDecodeIsTheBytes :
    ∃ (m : OpcodeMap) (ir : Byte) (rest : List Byte) (i : Instr), m.Legal ∧ decodeBytes m (ir :: rest) = .ok i :=
  ⟨.standard, 0x47, [0xFF, 0x01, 0x02], .prn (some 0xFF), by decide, rfl⟩

theorem witness_HltHaltsAndChangesNothingElse :
    ∃ s : State, s.cfg.opcodes.Legal ∧ s.status = .running ∧ s.pc.toNat < s.cfg.memSize ∧ s.opcodeByte = s.cfg.opcodes.hlt :=
  ⟨startAt 255 [0x01], by decide⟩

theorem witness_LdiLoadsItsImmediate :
    (∃ (s : State) (a : Byte), a.toNat < s.cfg.nregs ∧ a = 7 ∧ s.cfg.opcodes.Legal) ∧ (∃ s : State, s.pc.toNat + 1 = s.cfg.memSize) ∧
      (∃ s : State, s.pc.toNat + 2 = s.cfg.memSize) ∧ ∃ (s : State) (a : Byte), s.cfg.nregs ≤ a.toNat ∧ a = 8 :=
  ⟨⟨State.reset, 7, by decide⟩, ⟨startAt 255 [], by decide⟩, ⟨startAt 254 [], by decide⟩, ⟨State.reset, 8, by decide⟩⟩

theorem witness_PrnEmitsItsRegister :
    (∃ (s : State) (a : Byte), a.toNat < s.cfg.nregs ∧ a = 7 ∧ s.cfg.opcodes.Legal) ∧ (∃ s : State, s.pc.toNat + 1 = s.cfg.memSize) ∧
      ∃ (s : State) (a : Byte), s.cfg.nregs ≤ a.toNat ∧ a = 8 :=
  ⟨⟨State.reset, 7, by decide⟩, ⟨startAt 255 [], by decide⟩, ⟨State.reset, 8, by decide⟩⟩

theorem witness_MulFixedMultipliesR0ByR1 :
    ∃ s : State, s.cfg.opcodes.Legal ∧ s.cfg.aluOperands = .fixedR0R1 := ⟨State.reset, by decide⟩

theorem witness_MulFromOperandsMultipliesItsRegisters :
    (∃ (s : State) (a b : Byte), a.toNat < s.cfg.nregs ∧ b.toNat < s.cfg.nregs ∧ a = 7 ∧ b = 7 ∧ s.cfg.opcodes.Legal ∧
      s.cfg.aluOperands = .fromOperandBytes) ∧
    (∃ s : State, s.cfg.aluOperands = .fromOperandBytes ∧ s.pc.toNat + 1 = s.cfg.memSize) ∧
    (∃ s : State, s.cfg.aluOperands = .fromOperandBytes ∧ s.pc.toNat + 2 = s.cfg.memSize) ∧
    (∃ (s : State) (a : Byte), s.cfg.aluOperands = .fromOperandBytes ∧ s.cfg.nregs ≤ a.toNat ∧ a = 8) ∧
    ∃ (s : State) (a b : Byte), s.cfg.aluOperands = .fromOperandBytes ∧ a.toNat < s.cfg.nregs ∧ s.cfg.nregs ≤ b.toNat ∧ a = 7 ∧ b = 8 :=
  ⟨⟨wiredFrom State.reset, 7, 7, by decide⟩, ⟨wiredFrom (startAt 255 []), by decide⟩,
    ⟨wiredFrom (startAt 254 []), by decide⟩, ⟨wiredFrom State.reset, 8, by decide⟩, ⟨wiredFrom State.reset, 7, 8, by decide⟩⟩

/-- The clauses of AddAddsWhenWired and of SubSubtractsWhenWired have the same hypotheses. -/
theorem witness_AddAddsWhenWired :
    (∃ s : State, s.cfg.wireAddSub = false) ∧
    (∃ s : State, s.cfg.opcodes.Legal ∧ s.cfg.wireAddSub = true ∧ s.cfg.aluOperands = .fixedR0R1) ∧
    (∃ (s : State) (a b : Byte), a.toNat < s.cfg.nregs ∧ b.toNat < s.cfg.nregs ∧ a = 7 ∧ b = 0 ∧ s.cfg.opcodes.Legal ∧
      s.cfg.wireAddSub = true ∧ s.cfg.aluOperands = .fromOperandBytes) ∧
    (∃ s : State, s.cfg.wireAddSub = true ∧ s.cfg.aluOperands = .fromOperandBytes ∧ s.pc.toNat + 1 = s.cfg.memSize) ∧
    (∃ s : State, s.cfg.wireAddSub = true ∧ s.cfg.aluOperands = .fromOperandBytes ∧ s.pc.toNat + 2 = s.cfg.memSize) ∧
    (∃ (s : State) (a : Byte), s.cfg.wireAddSub = true ∧ s.cfg.aluOperands = .fromOperandBytes ∧ s.cfg.nregs ≤ a.toNat ∧ a = 8) ∧
    ∃ (s : State) (a b : Byte), s.cfg.wireAddSub = true ∧ s.cfg.aluOperands = .fromOperandBytes ∧ a.toNat < s.cfg.nregs ∧
      s.cfg.nregs ≤ b.toNat ∧ a = 7 ∧ b = 8 :=
  ⟨⟨State.reset, by decide⟩, ⟨built .fixedR0R1 true State.reset, by decide⟩, ⟨wiredFrom State.reset, 7, 0, by decide⟩,
    ⟨wiredFrom (startAt 255 []), by decide⟩, ⟨wiredFrom (startAt 254 []), by decide⟩,
    ⟨wiredFrom State.reset, 8, by decide⟩, ⟨wiredFrom State.reset, 7, 8, by decide⟩⟩

theorem witness_SubSubtractsWhenWired :
    (∃ s : State, s.cfg.wireAddSub = false) ∧
    (∃ s : State, s.cfg.opcodes.Legal ∧ s.cfg.wireAddSub = true ∧ s.cfg.aluOperands = .fixedR0R1) ∧
    (∃ (s : State) (a b : Byte), a.toNat < s.cfg.nregs ∧ b.toNat < s.cfg.nregs ∧ a = 0 ∧ b = 7 ∧ s.cfg.opcodes.Legal ∧
      s.cfg.wireAddSub = true ∧ s.cfg.aluOperands = .fromOperandBytes) ∧
    (∃ s : State, s.cfg.wireAddSub = true ∧ s.cfg.aluOperands = .fromOperandBytes ∧ s.pc.toNat + 1 = s.cfg.memSize) ∧
    (∃ s : State, s.cfg.wireAddSub = true ∧ s.cfg.aluOperands = .fromOperandBytes ∧ s.pc.toNat + 2 = s.cfg.memSize) ∧
    (∃ (s : State) (a : Byte), s.cfg.wireAddSub = true ∧ s.cfg.aluOperands = .fromOperandBytes ∧ s.cfg.nregs ≤ a.toNat ∧ a = 255) ∧
    ∃ (s : State) (a b : Byte), s.cfg.wireAddSub = true ∧ s.cfg.aluOperands = .fromOperandBytes ∧ a.toNat < s.cfg.nregs ∧
      s.cfg.nregs ≤ b.toNat ∧ a = 7 ∧ b = 8 :=
  ⟨⟨State.reset, by decide⟩, ⟨built .fixedR0R1 true State.reset, by decide⟩, ⟨wiredFrom State.reset, 0, 7, by decide⟩,
    ⟨wiredFrom (startAt 255 []), by decide⟩, ⟨wiredFrom (startAt 254 []), by decide⟩,
    ⟨wiredFrom State.reset, 255, by decide⟩, ⟨wiredFrom State.reset, 7, 8, by decide⟩⟩

theorem witness_PushStoresBelowTheStackPointer :
    (∃ (s : State) (a : Byte), a.toNat < s.cfg.nregs ∧ a = 7 ∧ s.cfg.opcodes.Legal ∧ s.mem.wf s.cfg.memSize ∧
      s.cfg.stackFloor.toNat < s.sp.toNat ∧ s.sp.toNat ≤ s.cfg.memSize ∧ s.sp = 1) ∧
    (∃ s : State, s.pc.toNat + 1 = s.cfg.memSize) ∧ (∃ (s : State) (a : Byte), s.cfg.nregs ≤ a.toNat ∧ a = 8) ∧
    ∃ (s : State) (a : Byte), a.toNat < s.cfg.nregs ∧ a = 7 ∧ s.sp.toNat ≤ s.cfg.stackFloor.toNat ∧ s.sp = 0 :=
  ⟨⟨{ State.reset with sp := 1 }, 7, by decide⟩, ⟨startAt 255 [], by decide⟩, ⟨State.reset, 8, by decide⟩,
    ⟨{ State.reset with sp := 0 }, 7, by decide⟩⟩

theorem witness_PopLoadsFromTheStackPointer :
    (∃ (s : State) (a : Byte), a.toNat < s.cfg.nregs ∧ a = 7 ∧ s.cfg.opcodes.Legal ∧ s.sp ≠ 0xFF ∧
      s.sp.toNat < s.cfg.memSize ∧ s.sp = 0xFE) ∧
    (∃ s : State, s.pc.toNat + 1 = s.cfg.memSize) ∧ (∃ (s : State) (a : Byte), s.cfg.nregs ≤ a.toNat ∧ a = 8) ∧
    ∃ (s : State) (a : Byte), a.toNat < s.cfg.nregs ∧ a = 7 ∧ s.sp = 0xFF :=
  ⟨⟨{ State.reset with sp := 0xFE }, 7, by decide⟩, ⟨startAt 255 [], by decide⟩, ⟨State.reset, 8, by decide⟩,
    ⟨{ State.reset with sp := 0xFF }, 7, by decide⟩⟩

theorem witness_StackPastTheEndOfASmallerMemoryFaults :
    (∃ (s : State) (a : Byte), a.toNat < s.cfg.nregs ∧ a = 7 ∧ s.cfg.stackFloor.toNat < s.sp.toNat ∧
      s.cfg.memSize < s.sp.toNat ∧ s.cfg.memSize = 16 ∧ s.sp = 17) ∧
    ∃ (s : State) (a : Byte), a.toNat < s.cfg.nregs ∧ a = 7 ∧ s.sp ≠ 0xFF ∧ s.cfg.memSize ≤ s.sp.toNat ∧
      s.cfg.memSize = 16 ∧ s.sp = 16 :=
  ⟨⟨sized 16 8 { State.reset with sp := 17 }, 7, by decide⟩, ⟨sized 16 8 { State.reset with sp := 16 }, 7, by decide⟩⟩

theorem witness_MulOfR0AndR1IsTheSameInBothModes :
    (∃ s : State, s.cfg.Legal ∧ s.regs.length = s.cfg.nregs ∧ s.cfg.nregs = 8) ∧
      ∃ s : State, s.cfg.Legal ∧ s.regs.length = s.cfg.nregs ∧ s.cfg.nregs = 2 :=
  ⟨⟨State.reset, by decide⟩, ⟨sized 256 2 State.reset, by decide⟩⟩

theorem witness_RegisterIndexIsCheckedNotMasked :
    (∃ (n : Nat) (b : Byte), n ≤ b.toNat ∧ n = 8 ∧ b = 8) ∧ ∃ (n : Nat) (b : Byte), b.toNat < n ∧ n = 8 ∧ b = 7 :=
  ⟨⟨8, 8, by decide⟩, ⟨8, 7, by decide⟩⟩

theorem witness_DeliveredOperandsAreCheckedInOrder :
    (∃ (s : State) (i : Instr), s.cfg.opcodes.Legal ∧ s.cfg.wires i.op = true ∧
      1 ≤ s.cfg.arity (s.cfg.opcodes.code i.op) ∧ opaOf i = none) ∧
    (∃ (s : State) (i : Instr), s.cfg.opcodes.Legal ∧ s.cfg.wires i.op = true ∧
      2 ≤ s.cfg.arity (s.cfg.opcodes.code i.op) ∧ (opaOf i).isSome = true ∧ opbOf i = none) ∧
    ∃ (s t : State) (i : Instr), s.cfg.opcodes.Legal ∧ s.cfg.wires i.op = true ∧
      s.cfg.arity (s.cfg.opcodes.code i.op) = 0 ∧ exec i s = .next t :=
  ⟨⟨State.reset, .prn none, by decide⟩, ⟨State.reset, .ldi (some 8) none, by decide⟩,
    ⟨State.reset, _, .mul none none, by decide, by decide, by decide, rfl⟩⟩

theorem witness_MemoryReadsWhatWasWritten :
    (∃ (s : State) (a : Nat), s.mem.wf s.cfg.memSize ∧ s.cfg.memSize ≤ a ∧ a = 256) ∧
    (∃ (s : State) (a : Nat), s.mem.wf s.cfg.memSize ∧ a < s.cfg.memSize ∧ a = 255) ∧
    ∃ s : State, s.mem.wf s.cfg.memSize ∧ s.cfg = .standard :=
  ⟨⟨start [0x01], 256, by decide⟩, ⟨start [0x01], 255, by decide⟩, ⟨start [0x01], by decide⟩⟩

/-- A PUSH of R0 = 5 over its own operand byte, 95's S8. -/
def pushOverItself : State := { start [0x45, 0x00] with sp := 2, regs := (List.replicate 8 0).set 0 5 }

theorem witness_OnlyPushChangesMemory :
    ∃ (s t : State) (a : Nat), s.mem.wf s.cfg.memSize ∧ s.cfg.opcodes.Legal ∧ step s = .next t ∧ t.mem.read a ≠ s.mem.read a :=
  ⟨pushOverItself, _, 1, by decide, by decide, rfl, by decide⟩

theorem witness_OnlyTheirWritersChangeRegisters :
    ∃ (s t : State) (i : Nat), s.cfg.opcodes.Legal ∧ step s = .next t ∧ t.readReg i ≠ s.readReg i :=
  ⟨start [0x82, 0x07, 0x09], _, 7, by decide, rfl, by decide⟩

theorem witness_OnlyPushAndPopMoveTheStackPointer :
    ∃ s t : State, s.cfg.opcodes.Legal ∧ step s = .next t ∧ t.sp ≠ s.sp :=
  ⟨pushOverItself, _, by decide, rfl, by decide⟩

theorem witness_OtherInstructionsDoNotSeeTheStackPointer :
    ∃ (i : Instr) (s t : State), i.op ≠ .push ∧ i.op ≠ .pop ∧ exec i s = .next t :=
  ⟨.ldi (some 7) (some 9), State.reset, _, by decide, by decide, rfl⟩

theorem witness_OnlyPrnAppendsToOut :
    ∃ s t : State, s.cfg.opcodes.Legal ∧ step s = .next t ∧ t.out ≠ s.out :=
  ⟨start [0x47, 0x02], _, by decide, rfl, by decide⟩

theorem witness_NoInstructionReadsOut :
    ∃ (i : Instr) (s t : State), exec i s = .next t ∧ t.out ≠ s.out :=
  ⟨.prn (some 2), State.reset, _, rfl, by decide⟩

theorem witness_PushUsesItsLatchedOperandAndFetchSeesTheStore :
    ∃ s t : State, s.mem.wf s.cfg.memSize ∧ s.cfg.opcodes.Legal ∧ s.opcodeByte = s.cfg.opcodes.push ∧ step s = .next t ∧
      t.status = .running ∧ ∃ u : State, u.mem = t.mem ∧ u.cfg = t.cfg ∧ u.pc.toNat = s.sp.toNat - 1 :=
  ⟨pushOverItself, after pushOverItself, by decide, by decide, by decide, rfl, by decide,
    ⟨{ after pushOverItself with pc := 1 }, rfl, rfl, by decide⟩⟩

theorem witness_PushThenPopRestoresRegisterAndStackPointer :
    ∃ (s : State) (a : Byte), s.mem.wf s.cfg.memSize ∧ s.cfg.opcodes.Legal ∧ a.toNat < s.cfg.nregs ∧
      s.cfg.stackFloor.toNat < s.sp.toNat ∧ s.sp.toNat ≤ s.cfg.memSize :=
  ⟨pushOverItself, 7, by decide⟩

theorem witness_NestedPushesPopInReverse :
    ∃ (s : State) (a b c d : Byte), s.mem.wf s.cfg.memSize ∧ s.cfg.opcodes.Legal ∧ s.regs.length = s.cfg.nregs ∧
      (∀ r ∈ [a, b, c, d], r.toNat < s.cfg.nregs) ∧ c ≠ d ∧ s.cfg.stackFloor.toNat + 1 < s.sp.toNat ∧
      s.sp.toNat ≤ s.cfg.memSize :=
  ⟨pushOverItself, 0, 7, 6, 7, by decide⟩

theorem witness_RegisterInstructionsFrame :
    (∃ (s t : State) (i : Instr) (dest : List Nat), (∃ a imm, i = .ldi a imm ∧ dest = namedRegister s a) ∧
      exec i s = .next t ∧ t.status = .running ∧ dest = [7]) ∧
    ∃ (s t : State) (i : Instr) (dest : List Nat),
      (∃ a b, (i = .mul a b ∨ i = .add a b ∨ i = .sub a b) ∧ dest = aluDestination s a) ∧
      exec i s = .next t ∧ t.status = .running ∧ dest = [6] :=
  ⟨⟨State.reset, _, .ldi (some 7) (some 1), _, ⟨_, _, rfl, rfl⟩, rfl, by decide, by decide⟩,
    ⟨wiredFrom State.reset, _, .add (some 6) (some 1), _, ⟨_, _, .inr (.inl rfl), rfl⟩, rfl, by decide, by decide⟩⟩

theorem witness_HltAndPrnFrame :
    (∃ s t : State, exec .hlt s = .next t) ∧ ∃ s t : State, exec (.prn (some 7)) s = .next t ∧ t.status = .running :=
  ⟨⟨State.reset, _, rfl⟩, ⟨State.reset, _, rfl, by decide⟩⟩

theorem witness_PushFrame :
    ∃ (s t : State) (a : Latch), s.mem.wf s.cfg.memSize ∧ exec (.push a) s = .next t ∧ t.mem ≠ s.mem :=
  ⟨pushOverItself, _, some 0, by decide, rfl, by decide⟩

theorem witness_PopFrame :
    ∃ (s t : State) (a : Latch), exec (.pop a) s = .next t ∧ t.status = .running :=
  ⟨State.reset, _, some 7, rfl, by decide⟩

theorem witness_FaultEntryIsPrecise :
    (∃ s t : State, step s = .next t ∧ t.status = .faulted ∧ t.fault.opcodeValid = true) ∧
      ∃ s t : State, step s = .next t ∧ t.status = .faulted ∧ t.fault.opcodeValid = false :=
  ⟨⟨start [0x47, 0x08], _, rfl, by decide⟩, ⟨{ State.reset with pc := 256 }, _, rfl, by decide⟩⟩

theorem witness_StepRecordsTheFirstFaultInPriorityOrder :
    (∃ (s : State) (c : Cause), s.cfg.Legal ∧ s.status = .running ∧ firstFault s = some c) ∧
      ∃ s : State, s.cfg.Legal ∧ s.status = .running ∧ firstFault s = none :=
  ⟨⟨{ start [0x45, 0x08] with sp := 0 }, .outOfBounds .register 8, by decide⟩, ⟨start [0x01], by decide⟩⟩

/-- The fault record is data, so a state may already hold the kind; no step brings it about. -/
theorem witness_NoStepRaisesUnsupportedOperation :
    ∃ s t : State, step s = .next t ∧ t.fault.kind = .unsupportedOperation :=
  ⟨{ start [0x01] with fault := { FaultRecord.cleared with kind := .unsupportedOperation } }, _, rfl, by decide⟩

/-- The invariant holds at a state whose step completes. -/
theorem witness_EveryStepKeepsTheInvariant : ∃ s t : State, s.Inv ∧ step s = .next t ∧ t.status = .running :=
  ⟨start [0x82, 0x07, 0x09], _,
    { build := by decide, memory := by decide, registers := by decide, pcBound := by decide, spBound := by decide, recorded := by decide, faultPc := by decide,
      record := rfl }, rfl, by decide⟩

theorem witness_ResetMeetsTheInvariant : ∃ cfg : Config, cfg.Legal := ⟨.standard, by decide⟩

theorem witness_EveryStepKeepsTheStackBound :
    ∃ s t : State, s.cfg.Legal ∧ s.stackBound ∧ step s = .next t ∧ t.sp = 0xF3 :=
  ⟨start [0x45, 0x00], _, by decide, by simp only [State.stackBound]; decide, rfl, by decide⟩

theorem witness_BoundedStackNeverFaultsOnPush :
    (∃ cfg : Config, cfg.Legal) ∧
    ∃ s t : State, s.cfg.Legal ∧ s.stackBound ∧ s.cfg.stackFloor.toNat + s.cfg.memSize / 2 < s.cfg.spInit.toNat ∧
      step s = .next t ∧ t.status = .faulted :=
  ⟨⟨.standard, by decide⟩,
    ⟨start [0x45, 0x08], _, by decide, by simp only [State.stackBound]; decide, by decide, rfl, by decide⟩⟩

theorem witness_NoStepChangesTheParameters : ∃ s t : State, step s = .next t :=
  ⟨start [0x01], _, rfl⟩

theorem witness_LoadPortWritesTheProgramFromZero :
    (∃ (s : State) (bytes : List Byte), s.mem.wf s.cfg.memSize ∧ bytes.length ≤ s.cfg.memSize ∧ bytes.length = 256) ∧
      ∃ (s : State) (bytes : List Byte), s.mem.wf s.cfg.memSize ∧ s.cfg.memSize < bytes.length ∧ bytes.length = 257 :=
  ⟨⟨State.reset, List.replicate 256 1, by decide, Nat.le_of_eq List.length_replicate, List.length_replicate⟩, ⟨State.reset, List.replicate 257 1, by decide, by rw [List.length_replicate]; decide, List.length_replicate⟩⟩

theorem witness_HostMovesOnARunningCore :
    (∃ (s : State) (addr : Nat), s.status = .running ∧ s.pc = 0 ∧ addr < s.cfg.memSize ∧ addr = 255) ∧
    (∃ (s : State) (addr : Nat), s.status = .running ∧ s.pc = 0 ∧ s.cfg.memSize ≤ addr ∧ addr = 256) ∧
    (∃ s : State, s.status = .running ∧ s.pc ≠ 0) ∧ ∃ s : State, s.status = .running ∧ s.cfg.memSize ≤ 256 :=
  ⟨⟨State.reset, 255, by decide⟩, ⟨State.reset, 256, by decide⟩, ⟨{ State.reset with pc := 1 }, by decide⟩, ⟨State.reset, by decide⟩⟩

theorem witness_LoaderReadsOneByteALine :
    (∃ c : Char, c ≠ '0' ∧ c ≠ '1') ∧
    (∃ (c : Char) (cs : List Char), (c = '0' ∨ c = '1') ∧ (c :: cs).length < 8 ∧ (c :: cs).length = 7) ∧
    ∃ (c : Char) (cs : List Char), (c = '0' ∨ c = '1') ∧ (c :: cs).length = 8 ∧
      ∃ d ∈ (c :: cs).take 8, d ≠ '0' ∧ d ≠ '1' :=
  ⟨⟨'#', by decide⟩, ⟨'0', ['1', '0', '1', '0', '1', '0'], by decide⟩,
    ⟨'0', ['0', '0', '0', '0', '0', '0', 'x'], .inl rfl, rfl, 'x', by decide⟩⟩

end Sys2Proof.Tests
end

namespace Sys2Proof.Machine

/-! ### 10_state.md: what a handler can raise -/

/-- Every cause an instruction's handler can raise, with what its raising implies. -/
inductive Raises (s : State) (i : Instr) : Cause → Prop
  /-- The first delivered operand is Absent (40 R75). -/
  | operandA (hn : i.op.slots ≠ 0) (ha : opaOf i = none) :
    Raises s i (.outOfBounds .operand (s.pc + 1))
  /-- The second delivered operand is Absent (40 R75). -/
  | operandB (hn : i.op.slots = 2) (ha : opaOf i ≠ none) (hb : opbOf i = none) :
    Raises s i (.outOfBounds .operand (s.pc + 2))
  /-- An operand byte names no register (10 R13). -/
  | register (b : Byte) (hb : opaOf i = some b ∨ opbOf i = some b) (hr : s.cfg.nregs ≤ b.toNat) :
    Raises s i (.outOfBounds .register (b.setWidth 9))
  /-- PUSH at or below the floor (43 R110). -/
  | stackFloor (hi : i.op = .push) (hs : s.sp ≤ s.cfg.stackFloor) :
    Raises s i (.outOfBounds .stackPush (s.sp.setWidth 9))
  /-- PUSH's own store is past Memory (20 R32). -/
  | pushPastEnd (hi : i.op = .push) (hs : s.cfg.stackFloor < s.sp) (hm : s.cfg.memSize ≤ pushAddress s) :
    Raises s i (.outOfBounds .stackPush (BitVec.ofNat 9 (pushAddress s)))
  /-- POP at the greatest sp (43 R111). -/
  | stackTop (hi : i.op = .pop) (hs : s.sp = 0xFF) :
    Raises s i (.outOfBounds .stackPop (s.sp.setWidth 9))
  /-- POP's own load is past Memory (20 R31). -/
  | popPastEnd (hi : i.op = .pop) (hm : s.cfg.memSize ≤ s.sp.toNat) :
    Raises s i (.outOfBounds .stackPop (BitVec.ofNat 9 s.sp.toNat))
  /-- The mnemonic has no handler in this build (42 R106, R107). -/
  | unwired (hw : s.cfg.wires i.op = false) : Raises s i .illegalInstruction

/-- A part of a handler answers a value with `Q` or raises a cause with `P`. -/
def Answers {α : Type} (P : Cause → Prop) (Q : α → Prop) : Except Cause α → Prop
  | .ok v => Q v
  | .error c => P c

section Answers
variable {α β : Type} {P : Cause → Prop} {s : State}

/-- Parts in sequence: the later part may rely on what the earlier one answered. -/
theorem Answers.bind {Q : α → Prop} {R : β → Prop} {x : Except Cause α} {f : α → Except Cause β}
    (hx : Answers P Q x) (hf : ∀ v, Q v → Answers P R (f v)) : Answers P R (x >>= f) := by
  cases x with
  | error c => exact hx
  | ok v => exact hf v hx

/-- Delivery answers the latch's byte, or raises where it is Absent (40 R75). -/
theorem deliver_answers {k : PcWord} {a : Latch}
    (hc : a = none → P (.outOfBounds .operand (s.pc + k))) :
    Answers P (fun v => a = some v) (deliver s k a) := by
  cases a with
  | none => exact hc rfl
  | some v => exact rfl

/-- A register index raises only where it names no register (10 R13). -/
theorem regIndex_answers {n : Nat} {b : Byte}
    (hc : n ≤ b.toNat → P (.outOfBounds .register (b.setWidth 9))) :
    Answers P (fun _ => True) (regIndex n b) := by
  rcases Nat.lt_or_ge b.toNat n with h | h
  · rw [regIndex_of_lt h]; trivial
  · rw [regIndex_of_ge h]; exact hc h

/-- A read raises only past the end of Memory (20 R31). -/
theorem memRead_answers {place : FaultPlace} {a : Nat}
    (hc : s.cfg.memSize ≤ a → P (.outOfBounds place (BitVec.ofNat 9 a))) :
    Answers P (fun _ => True) (memRead s place a) := by
  rcases Nat.lt_or_ge a s.cfg.memSize with h | h
  · rw [memRead_of_lt s place h]; trivial
  · rw [memRead_of_ge s place h]; exact hc h

/-- A write keeps STATUS, and raises only past the end of Memory (20 R32). -/
theorem memWrite_answers {place : FaultPlace} {a : Nat} {v : Byte}
    (hc : s.cfg.memSize ≤ a → P (.outOfBounds place (BitVec.ofNat 9 a))) :
    Answers P (fun u => u.status = s.status) (memWrite s place a v) := by
  rcases Nat.lt_or_ge a s.cfg.memSize with h | h
  · rw [memWrite_of_lt s place v h]; exact rfl
  · rw [memWrite_of_ge s place v h]; exact hc h

/-- The dispatch lookup raises only for a mnemonic that is not wired (40 R74). -/
theorem requireWired_answers {op : Op} (hc : s.cfg.wires op = false → P .illegalInstruction) :
    Answers P (fun _ => True) (requireWired s op) := by
  cases hw : s.cfg.wires op with
  | true => simp [requireWired, hw, Answers]
  | false => simpa [requireWired, hw, Answers] using hc hw

variable {i : Instr}

/-- A one-operand handler's register, or the fault of its operand. -/
theorem registerOperand_answers (hn : i.op.slots ≠ 0) :
    Answers (Raises s i) (fun _ => True) (registerOperand s (opaOf i)) :=
  .bind (deliver_answers (.operandA hn)) fun x hx =>
    regIndex_answers (.register x (.inl hx))

/-- An ALU instruction's registers, or the first fault of its operands. -/
theorem aluRegisters_answers (hn : i.op.slots = 2) :
    Answers (Raises s i) (fun _ => True) (aluRegisters s (opaOf i) (opbOf i)) := by
  cases hm : s.cfg.aluOperands with
  | fixedR0R1 => rw [aluRegisters_fixed hm]; trivial
  | fromOperandBytes =>
    simp only [aluRegisters, hm]
    exact .bind (deliver_answers (.operandA (by simp [hn]))) fun x hx =>
      .bind (deliver_answers (.operandB hn (by simp [hx]))) fun y hy =>
      .bind (regIndex_answers (.register x (.inl hx))) fun _ _ =>
      .bind (regIndex_answers (.register y (.inr hy))) fun _ _ => trivial

/-- An ALU handler raises nothing of its own where its select code computes (42 R100). -/
theorem aluHandler_answers {sel : BitVec 2} (hn : i.op.slots = 2)
    (hsel : ∀ x y, ∃ v, alu sel x y = .ok v) :
    Answers (Raises s i) (fun u => u.status = s.status) (aluHandler sel (opaOf i) (opbOf i) s) :=
  .bind (aluRegisters_answers hn) fun p _ => by
    obtain ⟨v, hv⟩ := hsel (s.readReg p.1) (s.readReg p.2)
    rw [hv]
    exact rfl

end Answers

/-- Every instruction but HLT is a handler that keeps STATUS or raises one of the causes. -/
theorem exec_eq_conclude_answers (s : State) {i : Instr} (hi : i ≠ .hlt) :
    ∃ r, exec i s = conclude s i.op r ∧
      Answers (Raises s i) (fun u => u.status = s.status) r := by
  cases i with
  | hlt => exact absurd rfl hi
  | push a =>
    refine ⟨_, rfl, .bind (registerOperand_answers (i := .push a) Nat.one_ne_zero) fun r _ => ?_⟩
    split
    · exact .stackFloor rfl ‹_›
    · exact .bind (memWrite_answers (.pushPastEnd rfl (BitVec.not_le.1 ‹_›))) fun u hu => hu
  | pop a =>
    refine ⟨_, rfl, .bind (registerOperand_answers (i := .pop a) Nat.one_ne_zero) fun r _ => ?_⟩
    split
    · exact .stackTop rfl ‹_›
    · exact .bind (memRead_answers (.popPastEnd rfl)) fun v _ => rfl
  | prn a =>
    exact ⟨_, rfl, .bind (registerOperand_answers (i := .prn a) Nat.one_ne_zero) fun r _ => rfl⟩
  | ldi a imm =>
    refine ⟨_, rfl, .bind (deliver_answers fun ha => ?_) fun x hx =>
      .bind (deliver_answers fun himm => ?_) fun v _ =>
      .bind (regIndex_answers (.register x (.inl hx))) fun r _ => rfl⟩
    · exact .operandA (by simp [Instr.op, Op.slots]) ha
    · exact .operandB rfl (by simp [opaOf, hx]) himm
  | mul a b =>
    exact ⟨_, rfl, aluHandler_answers (i := .mul a b) rfl fun x y => ⟨_, alu_selMul x y⟩⟩
  | add a b =>
    exact ⟨_, rfl, .bind (requireWired_answers fun hw => .unwired hw) fun _ _ =>
      aluHandler_answers (i := .add a b) rfl fun x y => ⟨_, alu_selAdd x y⟩⟩
  | sub a b =>
    exact ⟨_, rfl, .bind (requireWired_answers fun hw => .unwired hw) fun _ _ =>
      aluHandler_answers (i := .sub a b) rfl fun x y => ⟨_, alu_selSub x y⟩⟩

/-- What leads an instruction to Faulted: the entry of a fault its handler can raise. -/
theorem exec_raises {s t : State} {i : Instr} (h : exec i s = .next t) (hs : s.status ≠ .faulted)
    (ht : t.status = .faulted) :
    ∃ c, Raises s i c ∧ t = s.raise (some (s.cfg.opcodes.code i.op)) c := by
  by_cases hi : i = .hlt
  · subst hi
    cases h
    cases ht
  · obtain ⟨r, he, hr⟩ := exec_eq_conclude_answers s hi
    rcases conclude_next (he ▸ h) with ⟨c, rfl, rfl⟩ | ⟨u, rfl, rfl⟩
    · exact ⟨c, hr, rfl⟩
    · exact absurd (hr.symm.trans ht) hs

/-! ### 10_state.md: each operation keeps the invariant -/

/-- A mnemonic with operands takes OPA as its first. -/
theorem opaOf_build {op : Op} (hn : op.slots ≠ 0) (a b : Latch) : opaOf (op.build a b) = a := by
  cases op with
  | hlt => exact absurd rfl hn
  | push | pop | prn | ldi | mul | add | sub => rfl

/-- A mnemonic with two operands takes OPB as its second. -/
theorem opbOf_build {op : Op} (hn : op.slots = 2) (a b : Latch) : opbOf (op.build a b) = b := by
  cases op with
  | hlt | push | pop | prn => cases hn
  | ldi | mul | add | sub => rfl

/-- No cause is recorded as "no fault". -/
theorem Cause.kind_ne_none (c : Cause) : c.kind ≠ .none := by cases c <;> simp [Cause.kind]

/-- No mnemonic has more than two operands. -/
theorem slots_le_two (op : Op) : op.slots ≤ 2 := by cases op <;> decide

section Inv
variable {s : State}

/-- Outside Faulted the fault record is clear. -/
theorem State.Inv.fault_eq_cleared (hs : s.Inv) (hst : s.status ≠ .faulted) :
    s.fault = FaultRecord.cleared := by
  have hk : s.fault.kind = .none := not_not.1 fun hk => hst (hs.recorded.2 hk)
  simpa only [recordLegal, hk] using hs.record

/-- The cleared record is R18's row of kind 0. -/
theorem recordLegal_of_cleared (h : s.fault = FaultRecord.cleared) : recordLegal s := by
  simp only [recordLegal, h, FaultRecord.cleared]

/-- The number of registers survives a register write. -/
theorem State.Inv.writeReg (hs : s.Inv) (i : Nat) (v : Byte) : (s.writeReg i v).Inv :=
  { hs with registers := by simp [hs.registers] }

/-- The invariant does not speak of OUT. -/
theorem State.Inv.emit (hs : s.Inv) (v : Byte) : (s.emit v).Inv :=
  { hs with }

/-- HLT leaves the cleared record with Halted. -/
theorem State.Inv.halt (hs : s.Inv) (hst : s.status ≠ .faulted) : s.halt.Inv :=
  { hs with
    recorded := by simp [hs.fault_eq_cleared hst, FaultRecord.cleared]
    faultPc := by simp }

/-- A store within Memory keeps its canonical form. -/
theorem State.Inv.writeMem (hs : s.Inv) {a : Nat} (ha : a < s.cfg.memSize) (v : Byte) :
    State.Inv { s with mem := s.mem.write a v } :=
  { hs with memory := Memory.wf_write hs.memory ha }

/-- Outside Faulted sp may move within Memory; a record of the stack would not follow it. -/
theorem State.Inv.writeSp (hs : s.Inv) (hst : s.status ≠ .faulted) {v : Byte}
    (hv : v.toNat ≤ s.cfg.memSize) : (s.writeSp v).Inv :=
  { hs with
    spBound := hv
    record := recordLegal_of_cleared (hs.fault_eq_cleared hst) }

/-- From an opcode within Memory pc advances by at most 3 (10 R14). -/
theorem State.Inv.advance (hs : s.Inv) (hst : s.status ≠ .faulted) (hp : s.pc.toNat < s.cfg.memSize)
    (op : Op) : (s.advance (operandCount (s.cfg.opcodes.code op))).Inv :=
  { hs with
    pcBound := by
      obtain ⟨hmap, ⟨-, hsize⟩, -⟩ := hs.build
      rw [advance_pc_toNat _ (by omega), OpcodeMap.operandCount_code hmap, advance_cfg]
      have := slots_le_two op
      omega
    faultPc := fun h => absurd h hst }

/-- Fault entry keeps the invariant where the record it leaves is legal. -/
theorem State.Inv.raise (hs : s.Inv) {ir : Option Byte} {c : Cause} (hr : recordLegal (s.raise ir c)) :
    (s.raise ir c).Inv :=
  { hs with
    recorded := by simp [c.kind_ne_none]
    faultPc := fun _ => rfl
    record := hr }

/-- A fetch past Memory leaves R18's Fetch row. -/
theorem State.Inv.raise_fetch (hs : s.Inv) (hp : s.cfg.memSize ≤ s.pc.toNat) :
    (s.raise none (.outOfBounds .fetch s.pc)).Inv :=
  hs.raise ⟨rfl, rfl, rfl, hp, hs.pcBound⟩

/-- An opcode without a handler leaves R122's record. -/
theorem State.Inv.raise_illegalInstruction (hs : s.Inv) (hp : s.pc.toNat < s.cfg.memSize) (ir : Byte) :
    (s.raise (some ir) .illegalInstruction).Inv :=
  hs.raise ⟨rfl, rfl, rfl, hp⟩

/-- An Absent operand is at the first address past Memory: R18's Operand row. -/
theorem State.Inv.raise_operand (hs : s.Inv) {k : PcWord} (hk : s.pc.toNat + k.toNat = s.cfg.memSize)
    (ir : Byte) : (s.raise (some ir) (.outOfBounds .operand (s.pc + k))).Inv := by
  obtain ⟨-, ⟨-, hsize⟩, -⟩ := hs.build
  refine hs.raise ⟨rfl, ?_⟩
  change (s.pc + k).toNat = s.cfg.memSize
  rw [BitVec.toNat_add_of_lt (by omega), hk]

/-- Every fault of a fetched instruction's handler leaves a row of R18 and R121. -/
theorem State.Inv.raise_handler (hs : s.Inv) (hp : s.pc.toNat < s.cfg.memSize) {op : Op} {c : Cause}
    (hc : Raises s (op.build (s.latchAt (s.pc.toNat + 1)) (s.latchAt (s.pc.toNat + 2))) c) (ir : Byte) :
    (s.raise (some ir) c).Inv := by
  have absent {a : Nat} (ha : s.latchAt a = none) : s.cfg.memSize ≤ a := by
    by_contra hlt
    simp [latchAt_of_lt s (Nat.lt_of_not_le hlt)] at ha
  have present {a : Nat} (ha : s.latchAt a ≠ none) : a < s.cfg.memSize := by
    by_contra hlt
    exact ha (latchAt_of_ge s (Nat.le_of_not_lt hlt))
  have hsp := hs.spBound
  cases hc with
  | operandA hn ha =>
    rw [Op.build_op] at hn
    rw [opaOf_build hn] at ha
    have := absent ha
    exact hs.raise_operand (k := 1) (by simp; omega) ir
  | operandB hn ha hb =>
    rw [Op.build_op] at hn
    rw [opaOf_build (by simp [hn])] at ha
    rw [opbOf_build hn] at hb
    have := present ha
    have := absent hb
    exact hs.raise_operand (k := 2) (by simp; omega) ir
  | register b _ hr =>
    have hv : (b.setWidth 9).toNat = b.toNat := BitVec.toNat_setWidth_of_le (by decide)
    refine hs.raise ⟨rfl, ?_, ?_⟩
    · exact hv ▸ hr
    · exact hv ▸ Nat.le_of_lt_succ b.isLt
  | stackFloor _ hfloor => exact hs.raise ⟨rfl, rfl, hfloor⟩
  | pushPastEnd _ hfloor hm =>
    have : 0 < s.sp.toNat := Nat.zero_lt_of_lt (BitVec.lt_def.1 hfloor)
    simp only [pushAddress] at hm
    omega
  | stackTop _ htop => exact hs.raise ⟨rfl, rfl, .inl htop⟩
  | popPastEnd _ hm =>
    have hv : BitVec.ofNat 9 s.sp.toNat = s.sp.setWidth 9 := BitVec.ofNat_toNat 9 s.sp
    exact hs.raise ⟨rfl, hv, .inr (Nat.le_antisymm hsp hm)⟩
  | unwired _ => exact hs.raise_illegalInstruction hp ir

/-- An effect that completes keeps the invariant. -/
theorem State.Inv.of_effect (hs : s.Inv) (hst : s.status ≠ .faulted) (hp : s.pc.toNat < s.cfg.memSize)
    {i : Instr} {t : State} (h : Effect s i t) (ht : t.status ≠ .faulted) : t.Inv := by
  have hsp := hs.spBound
  cases h with
  | halted => exact hs.halt hst
  | faulted => exact absurd rfl ht
  | loaded a imm => exact (hs.writeReg a.toNat imm).advance hst hp .ldi
  | emitted a => exact (hs.emit _).advance hst hp .prn
  | pushed a _ hfloor hm =>
    have hpos : 0 < s.sp.toNat := Nat.zero_lt_of_lt (BitVec.lt_def.1 hfloor)
    have hv : (s.sp - 1).toNat ≤ s.cfg.memSize := by bv_omega
    exact ((hs.writeMem hm _).writeSp hst hv).advance hst hp .push
  | popped a _ _ hm =>
    have hv : (s.sp + 1).toNat ≤ s.cfg.memSize := by bv_omega
    exact ((hs.writeReg a.toNat _).writeSp hst hv).advance hst hp .pop
  | computed _ a b v p => exact (hs.writeReg p.1 v).advance hst hp _

end Inv

/-- Settles O46: every step is a fault entry with a legal record, or operations that each keep the invariant. -/
theorem everyStepKeepsTheInvariant : Obligations.EveryStepKeepsTheInvariant := by
  intro s t hs h
  obtain ⟨hrun, ⟨hp, rfl⟩ | ⟨hp, -, rfl⟩ | ⟨hp, op, -, hx⟩⟩ := step_next h
  · exact hs.raise_fetch hp
  · exact hs.raise_illegalInstruction hp _
  · have hst : s.status ≠ .faulted := by simp [hrun]
    by_cases ht : t.status = .faulted
    · obtain ⟨c, hc, rfl⟩ := exec_raises hx hst ht
      exact hs.raise_handler hp hc _
    · exact hs.of_effect hst hp (exec_effect hx) ht

/-! ### 10_state.md R17: Halted -/

/-- Of all effects only HLT's enters Halted. -/
theorem Effect.status_eq_halted_iff {s t : State} {i : Instr} (h : Effect s i t)
    (hs : s.status ≠ .halted) : t.status = .halted ↔ i = .hlt := by
  cases h with
  | halted => simp
  | faulted _ c hi => simp [hi]
  | loaded | emitted | pushed | popped => simp [hs]
  | computed _ a b v p hi => rcases hi with rfl | rfl | rfl <;> simp [hs]

/-- HLT is the only instruction built for HLT's mnemonic. -/
theorem build_eq_hlt_iff {op : Op} {a b : Latch} : op.build a b = .hlt ↔ op = .hlt := by
  cases op <;> simp [Op.build]

/-- Settles O7: a fault enters Faulted, and an effect enters Halted exactly for the mnemonic HLT, which the opcode byte names. -/
theorem onlyHltEntersHalted : Obligations.OnlyHltEntersHalted := by
  intro s t hm h
  obtain ⟨hrun, ⟨hp, rfl⟩ | ⟨hp, hno, rfl⟩ | ⟨hp, op, hop, he⟩⟩ := step_effect h
  · exact ⟨hrun, by simp [Nat.not_lt.2 hp]⟩
  · have hb : s.opcodeByte ≠ s.cfg.opcodes.hlt := (hno .hlt).symm
    exact ⟨hrun, by simp [hb]⟩
  · have hb : s.opcodeByte = s.cfg.opcodes.hlt ↔ op = .hlt := by
      rw [State.opcodeByte, ← hop]
      exact ⟨fun hc => code_injective hm (op' := .hlt) hc, fun hc => by rw [hc]; rfl⟩
    rw [he.status_eq_halted_iff (by simp [hrun]), build_eq_hlt_iff, hb]
    exact ⟨hrun, by simp [hp]⟩

/-! ### 10_state.md R12: sp is seen by PUSH and POP alone -/

/-- A handler whose answer differs only in sp leads to a next state that differs only in sp. -/
theorem conclude_writeSp {s t : State} {op : Op} {r r' : Except Cause State} {v : Byte}
    (hr : r' = (·.writeSp v) <$> r) (h : conclude s op r = .next t) :
    conclude (s.writeSp v) op r' = .next (t.writeSp v) := by
  subst hr
  rcases conclude_next h with ⟨c, rfl, rfl⟩ | ⟨u, rfl, rfl⟩ <;> rfl

/-- A register operand does not depend on sp. -/
theorem registerOperand_writeSp (s : State) (v : Byte) (a : Latch) :
    registerOperand (s.writeSp v) a = registerOperand s a := by
  simp only [registerOperand_eq, writeSp_pc, writeSp_cfg]

/-- Delivery does not depend on sp. -/
theorem deliver_writeSp (s : State) (v : Byte) (k : PcWord) (a : Latch) :
    deliver (s.writeSp v) k a = deliver s k a := by
  cases a <;> rfl

/-- An ALU instruction's registers do not depend on sp. -/
theorem aluRegisters_writeSp (s : State) (v : Byte) (a b : Latch) :
    aluRegisters (s.writeSp v) a b = aluRegisters s a b := by
  simp only [aluRegisters, deliver_writeSp, writeSp_cfg]

/-- An ALU handler carries sp through. -/
theorem aluHandler_writeSp (sel : BitVec 2) (a b : Latch) (s : State) (v : Byte) :
    aluHandler sel a b (s.writeSp v) = (·.writeSp v) <$> aluHandler sel a b s := by
  simp only [aluHandler, aluRegisters_writeSp, map_bind]
  rfl

/-- Settles O33: each handler but PUSH's and POP's gives the same answer from another sp, that sp in it. -/
theorem otherInstructionsDoNotSeeTheStackPointer :
    Obligations.OtherInstructionsDoNotSeeTheStackPointer := by
  intro i s t v hpush hpop h
  change exec i (s.writeSp v) = .next (t.writeSp v)
  cases i with
  | push a => exact absurd rfl hpush
  | pop a => exact absurd rfl hpop
  | hlt =>
    cases h
    rfl
  | prn a => exact conclude_writeSp (by simp only [registerOperand_writeSp, map_bind]; rfl) h
  | ldi a imm => exact conclude_writeSp (by simp only [deliver_writeSp, map_bind]; rfl) h
  | mul a b => exact conclude_writeSp (aluHandler_writeSp selMul a b s v) h
  | add a b => exact conclude_writeSp (by simp only [aluHandler_writeSp, map_bind]; rfl) h
  | sub a b => exact conclude_writeSp (by simp only [aluHandler_writeSp, map_bind]; rfl) h

/-! ### 10_state.md R23 and R13: reset and register indices -/

/-- Every register is 0 after reset. -/
@[simp] theorem readReg_resetWith (cfg : Config) (i : Nat) : (State.resetWith cfg).readReg i = 0 := by
  by_cases hi : i < cfg.nregs <;> simp [State.readReg, State.resetWith, hi]

/-- Every cell is 0 after reset. -/
@[simp] theorem read_resetWith (cfg : Config) (a : Nat) : (State.resetWith cfg).mem.read a = 0 := rfl

/-- Settles O1: the cells and registers are 0 in every build's reset, and the other fields are the default build's. -/
theorem resetLeavesEveryFieldAtItsValue : Obligations.ResetLeavesEveryFieldAtItsValue :=
  ⟨rfl, fun a _ => read_resetWith .standard a, rfl, fun i _ => readReg_resetWith .standard i,
    rfl, rfl, rfl, rfl, rfl, rfl, rfl, rfl, rfl, rfl, rfl⟩

/-- Settles O27: the two answers of RegIndex, and for NREGS 8 the bytes it takes are those below 8. -/
theorem registerIndexIsCheckedNotMasked : Obligations.RegisterIndexIsCheckedNotMasked := by
  refine fun n b => ⟨regIndex_of_ge, regIndex_of_lt, fun ⟨r, hr⟩ => ?_, fun hb => ?_⟩
  · exact Nat.le_of_lt_succ (regIndex_eq_ok hr).2
  · exact ⟨_, regIndex_of_lt (Nat.lt_succ_of_le hb)⟩

end Sys2Proof.Machine

namespace Sys2Proof.Machine

/-! ### 20_memory.md R31 and R32: one byte of Memory -/

/-- A write within Memory reads back, and leaves every other cell, every other field and the canonical form. -/
theorem memWrite_reads_back {s : State} {place : FaultPlace} {a : Nat} {v : Byte}
    (hw : s.mem.wf s.cfg.memSize) (ha : a < s.cfg.memSize) :
    ∃ t, memWrite s place a v = .ok t ∧ t = { s with mem := t.mem } ∧ t.mem.wf t.cfg.memSize ∧
      ∀ x, t.mem.read x = if x = a then v else s.mem.read x :=
  ⟨_, memWrite_of_lt s place v ha, rfl, Memory.wf_write hw ha, Memory.read_write hw⟩

/-- A read answers a byte exactly within Memory. -/
theorem memRead_answers_byte_iff {s : State} {place : FaultPlace} {a : Nat} :
    (∃ w, memRead s place a = .ok w) ↔ a < s.cfg.memSize :=
  ⟨fun ⟨_, hw⟩ => (memRead_eq_ok hw).1, fun ha => ⟨_, memRead_of_lt s place ha⟩⟩

/-- Settles O29: MemRead and MemWrite fault past the end, read back within it, and 256 cells end at 255. -/
theorem memoryReadsWhatWasWritten : Obligations.MemoryReadsWhatWasWritten := by
  refine fun s place a v hw => ⟨fun ha => ?_, fun ha => ?_, fun hcfg => ?_⟩
  · exact ⟨memRead_of_ge s place ha, memWrite_of_ge s place v ha⟩
  · exact ⟨memRead_of_lt s place ha, memWrite_reads_back hw ha⟩
  · rw [memRead_answers_byte_iff, hcfg]
    exact Nat.lt_succ_iff

/-! ### 20_memory.md R33: the one store of a step -/

/-- The step from `s` to `t` completed PUSH's store of the byte `v` below sp (43 R110). -/
structure StoredBelowSp (s t : State) (v : Byte) : Prop where
  aboveFloor : s.cfg.stackFloor < s.sp
  inMemory : pushAddress s < s.cfg.memSize
  status : t.status = s.status
  cfg : t.cfg = s.cfg
  mem : t.mem = s.mem.write (pushAddress s) v

/-- Over a canonical Memory the cell below sp holds the byte stored, and every other cell is as before. -/
theorem StoredBelowSp.read {s t : State} {v : Byte} (h : StoredBelowSp s t v)
    (hw : s.mem.wf s.cfg.memSize) (x : Nat) :
    t.mem.read x = if x = pushAddress s then v else s.mem.read x := by
  rw [h.mem, Memory.read_write hw]

/-- PUSH's address is exactly one below sp, which is above the floor and so not 0. -/
theorem StoredBelowSp.pushAddress_succ {s t : State} {v : Byte} (h : StoredBelowSp s t v) :
    pushAddress s + 1 = s.sp.toNat :=
  Nat.sub_add_cancel (Nat.zero_lt_of_lt (BitVec.lt_def.1 h.aboveFloor))

/-- Of all effects only a completed PUSH's changes Memory, and a PUSH that stores nothing has faulted. -/
theorem Effect.keeps_mem_or_stores {s t : State} {i : Instr} (h : Effect s i t) :
    (t.mem = s.mem ∧ (i.op = .push → t.status = .faulted)) ∨
      ∃ a, i = .push (some a) ∧ StoredBelowSp s t (s.readReg a.toNat) := by
  cases h with
  | pushed a _ hs hm => exact .inr ⟨a, rfl, hs, hm, rfl, rfl, rfl⟩
  | faulted => exact .inl ⟨rfl, fun _ => rfl⟩
  | halted | loaded | emitted | popped => exact .inl ⟨rfl, nofun⟩
  | computed _ a b v p hi => rcases hi with rfl | rfl | rfl <;> exact .inl ⟨rfl, nofun⟩

/-- The mnemonic of a PUSH built is PUSH, and its operand is the first latch. -/
theorem build_eq_push {op : Op} {a b l : Latch} (h : op.build a b = .push l) : op = .push ∧ a = l := by
  cases op <;> cases h
  exact ⟨rfl, rfl⟩

/-- A step keeps Memory, or it is PUSH storing the register that the byte at pc + 1 names; a PUSH that keeps Memory has faulted. -/
theorem step_keeps_mem_or_stores {s t : State} (hm : s.cfg.opcodes.Legal) (h : step s = .next t) :
    (t.mem = s.mem ∧ (s.opcodeByte = s.cfg.opcodes.push → t.status = .faulted)) ∨
      (s.opcodeByte = s.cfg.opcodes.push ∧
        StoredBelowSp s t (s.readReg (s.mem.read (s.pc.toNat + 1)).toNat)) := by
  obtain ⟨-, ⟨-, rfl⟩ | ⟨-, -, rfl⟩ | ⟨-, op, hop, he⟩⟩ := step_effect h
  · exact .inl ⟨rfl, fun _ => rfl⟩
  · exact .inl ⟨rfl, fun _ => rfl⟩
  · rcases he.keeps_mem_or_stores with ⟨hmem, hf⟩ | ⟨a, hi, hst⟩
    · refine .inl ⟨hmem, fun hpush => hf ?_⟩
      rw [Op.build_op]
      exact code_injective hm (hop.trans hpush)
    · obtain ⟨rfl, ha⟩ := build_eq_push hi
      obtain ⟨-, rfl⟩ := latchAt_eq_some ha
      exact .inr ⟨hop.symm, hst⟩

/-- Settles O30: a step that does not keep Memory is a PUSH, and its store leaves every cell but the one below sp. -/
theorem onlyPushChangesMemory : Obligations.OnlyPushChangesMemory := by
  intro s t a hw hm h hne
  obtain ⟨hrun, -⟩ := step_effect h
  rcases step_keeps_mem_or_stores hm h with ⟨hmem, -⟩ | ⟨hpush, hst⟩
  · exact absurd (by rw [hmem]) hne
  · have ha : a = pushAddress s := by
      by_contra hna
      exact hne (by rw [hst.read hw, if_neg hna])
    subst ha
    exact ⟨hpush, hst.status.trans hrun, hst.pushAddress_succ, by rw [hst.read hw, if_pos rfl]⟩

/-! ### 20_memory.md R44: a PUSH over its own bytes -/

/-- Settles O36: the store wrote the register that the byte at pc + 1 named before it, and any later latch or fetch of the address reads that cell. -/
theorem pushUsesItsLatchedOperandAndFetchSeesTheStore :
    Obligations.PushUsesItsLatchedOperandAndFetchSeesTheStore := by
  intro s t hw hm hpush h ht u humem hucfg
  rcases step_keeps_mem_or_stores hm h with ⟨-, hf⟩ | ⟨-, hst⟩
  · exact absurd (ht.symm.trans (hf hpush)) nofun
  · have hread : u.mem.read (pushAddress s) = s.readReg (s.mem.read (s.pc.toNat + 1)).toNat := by
      rw [humem, hst.read hw, if_pos rfl]
    have hlt : pushAddress s < u.cfg.memSize := by
      rw [hucfg, hst.cfg]
      exact hst.inMemory
    refine ⟨?_, fun hpc => ?_⟩
    · rw [← hread]
      exact latchAt_of_lt u hlt
    · have hpc' : u.pc.toNat = pushAddress s := hpc
      exact ⟨_, fetch_of_lt (hpc' ▸ hlt), hpc' ▸ hread⟩

/-! ### 20_memory.md R31 and R32: the stack past the end of a smaller Memory -/

/-- A PUSH whose own checks pass is MemWrite below sp, then the decrement (43 R110). -/
theorem exec_push_of_checks {s : State} {a : Byte} (ha : a.toNat < s.cfg.nregs)
    (hs : s.cfg.stackFloor < s.sp) :
    exec (.push (some a)) s = conclude s .push (do
      let t ← memWrite s .stackPush (pushAddress s) (s.readReg a.toNat)
      .ok (t.writeSp (s.sp - 1))) := by
  simp only [exec, execPush, registerOperand_eq, regIndex_of_lt ha, ok_bind, if_neg (BitVec.not_le.2 hs)]

/-- A POP whose own checks pass is MemRead at sp, then the register write and the increment (43 R111). -/
theorem exec_pop_of_checks {s : State} {a : Byte} (ha : a.toNat < s.cfg.nregs) (hs : s.sp ≠ 0xFF) :
    exec (.pop (some a)) s = conclude s .pop (do
      let v ← memRead s .stackPop s.sp.toNat
      .ok ((s.writeReg a.toNat v).writeSp (s.sp + 1))) := by
  simp only [exec, execPop, registerOperand_eq, regIndex_of_lt ha, ok_bind, if_neg hs]

/-- Settles O54: past the stack's own checks, PUSH and POP end with the fault that MemWrite or MemRead raises. -/
theorem stackPastTheEndOfASmallerMemoryFaults :
    Obligations.StackPastTheEndOfASmallerMemoryFaults := by
  refine ⟨fun s a ha hfloor hsp => ?_, fun s a ha htop hsp => ?_⟩
  · have hend : s.cfg.memSize ≤ pushAddress s := Nat.le_sub_one_of_lt hsp
    rw [exec_push_of_checks ha (BitVec.lt_def.2 hfloor), memWrite_of_ge s _ _ hend]
    rfl
  · rw [exec_pop_of_checks ha htop, memRead_of_ge s _ hsp, BitVec.ofNat_toNat]
    rfl

end Sys2Proof.Machine

namespace Sys2Proof

/-! ### 30_encoding.md R54: what an opcode byte of a legal map says -/

/-- An opcode's length is its mnemonic's operand slots and the opcode byte itself (30 R52). -/
theorem OpcodeMap.instrLength_code {m : OpcodeMap} (h : m.Legal) (op : Op) :
    instrLength (m.code op) = op.slots + 1 := by
  rw [instrLength, OpcodeMap.operandCount_code h]

/-- In FIXED_R0_R1 a handler receives its mnemonic's slots, but none for an ALU mnemonic (30 R55). -/
theorem Config.arity_code_of_fixedR0R1 {cfg : Config} (h : cfg.opcodes.Legal)
    (hmode : cfg.aluOperands = .fixedR0R1) (op : Op) :
    cfg.arity (cfg.opcodes.code op) = if op.isAlu = true then 0 else op.slots := by
  simp only [Config.arity, OpcodeMap.aluFlag_code h, OpcodeMap.operandCount_code h, hmode, and_true]

/-- In FROM_OPERAND_BYTES a handler receives all of its mnemonic's slots (30 R55). -/
theorem Config.arity_code_of_fromOperandBytes {cfg : Config} (h : cfg.opcodes.Legal)
    (hmode : cfg.aluOperands = .fromOperandBytes) (op : Op) :
    cfg.arity (cfg.opcodes.code op) = op.slots := by
  simp [Config.arity, OpcodeMap.operandCount_code h, hmode]

/-- A mnemonic's opcode is dispatched exactly when the build wires the mnemonic (30 R54, 92 D8). -/
theorem Config.dispatches_code {cfg : Config} (h : cfg.opcodes.Legal) (op : Op) :
    cfg.dispatches (cfg.opcodes.code op) = cfg.wires op := by
  rw [Config.dispatches, OpcodeMap.find_code h]

/-- A build with WIRE_ADD_SUB wires every mnemonic. -/
theorem Config.wires_of_wireAddSub {cfg : Config} (h : cfg.wireAddSub = true) (op : Op) :
    cfg.wires op = true := by
  cases op with
  | add | sub => exact h
  | hlt | push | pop | prn | ldi | mul => rfl

/-- The default opcodes are distinct, and their bits n and A are those of their mnemonics. -/
theorem OpcodeMap.standard_legal : OpcodeMap.standard.Legal := by decide

/-- A row of the dispatch table follows from its mnemonic, since the default map is legal. -/
theorem dispatchTable_row (op : Op) :
    (operandCount (OpcodeMap.standard.code op)).toNat = op.slots ∧
    aluFlag (OpcodeMap.standard.code op) = op.isAlu ∧
    instrLength (OpcodeMap.standard.code op) = op.slots + 1 ∧
    Config.standard.arity (OpcodeMap.standard.code op) = (if op.isAlu = true then 0 else op.slots) ∧
    { Config.standard with aluOperands := .fromOperandBytes }.arity (OpcodeMap.standard.code op) =
      op.slots ∧
    Config.standard.dispatches (OpcodeMap.standard.code op) = Config.standard.wires op ∧
    { Config.standard with wireAddSub := true }.dispatches (OpcodeMap.standard.code op) = true :=
  have h := OpcodeMap.standard_legal
  have hwired := (Config.dispatches_code (cfg := { Config.standard with wireAddSub := true }) h op).trans
    (Config.wires_of_wireAddSub rfl op)
  ⟨OpcodeMap.operandCount_code h op, OpcodeMap.aluFlag_code h op, OpcodeMap.instrLength_code h op,
    Config.arity_code_of_fixedR0R1 (cfg := .standard) h rfl op,
    Config.arity_code_of_fromOperandBytes
      (cfg := { Config.standard with aluOperands := .fromOperandBytes }) h rfl op,
    Config.dispatches_code (cfg := .standard) h op, hwired⟩

/-- Settles O9: each row's byte is its mnemonic's opcode in the default map, which is legal, so the row follows from the mnemonic. -/
theorem dispatchTableMatchesTheSpec : Obligations.DispatchTableMatchesTheSpec := by
  refine ⟨?_, OpcodeMap.standard_legal⟩
  simp only [List.forall_mem_cons]
  exact ⟨⟨rfl, dispatchTable_row .hlt⟩, ⟨rfl, dispatchTable_row .push⟩, ⟨rfl, dispatchTable_row .pop⟩,
    ⟨rfl, dispatchTable_row .prn⟩, ⟨rfl, dispatchTable_row .ldi⟩, ⟨rfl, dispatchTable_row .mul⟩,
    ⟨rfl, dispatchTable_row .add⟩, ⟨rfl, dispatchTable_row .sub⟩, nofun⟩

end Sys2Proof

namespace Sys2Proof

/-! ### 30_encoding.md R55: which operands are delivered -/

/-- A mnemonic that receives operands receives all its slots, and if it is an ALU one its build is FROM_OPERAND_BYTES. -/
theorem Config.arity_code_of_ne_zero {cfg : Config} (h : cfg.opcodes.Legal) {op : Op}
    (ha : cfg.arity (cfg.opcodes.code op) ≠ 0) :
    cfg.arity (cfg.opcodes.code op) = op.slots ∧
      (op.isAlu = true → cfg.aluOperands = .fromOperandBytes) := by
  cases hm : cfg.aluOperands with
  | fromOperandBytes => exact ⟨Config.arity_code_of_fromOperandBytes h hm op, fun _ => rfl⟩
  | fixedR0R1 =>
    rw [Config.arity_code_of_fixedR0R1 h hm] at ha ⊢
    have halu : ¬ op.isAlu = true := fun halu => ha (if_pos halu)
    exact ⟨if_neg halu, fun hc => absurd hc halu⟩

/-- HLT is the only instruction of its mnemonic. -/
theorem Instr.eq_hlt_of_op {i : Instr} (h : i.op = .hlt) : i = .hlt := by
  cases i with
  | hlt => rfl
  | push | pop | prn | ldi | mul | add | sub => cases h

/-- Only HLT has no operand slot. -/
theorem Op.slots_eq_zero_iff {op : Op} : op.slots = 0 ↔ op = .hlt := by cases op <;> decide

/-- The mnemonics that receive no operand are HLT and, in FIXED_R0_R1, the ALU ones. -/
theorem Config.arity_code_eq_zero {cfg : Config} (h : cfg.opcodes.Legal) {op : Op}
    (ha : cfg.arity (cfg.opcodes.code op) = 0) :
    op = .hlt ∨ (op.isAlu = true ∧ cfg.aluOperands = .fixedR0R1) := by
  cases hm : cfg.aluOperands with
  | fromOperandBytes =>
    rw [Config.arity_code_of_fromOperandBytes h hm] at ha
    exact .inl (Op.slots_eq_zero_iff.1 ha)
  | fixedR0R1 =>
    rw [Config.arity_code_of_fixedR0R1 h hm] at ha
    by_cases halu : op.isAlu = true
    · exact .inr ⟨halu, rfl⟩
    · rw [if_neg halu] at ha
      exact .inl (Op.slots_eq_zero_iff.1 ha)

/-- The operand count `n = IR[7:6]` is the opcode byte's quotient by 64 (30 R50). -/
theorem operandCount_toNat (ir : Byte) : (operandCount ir).toNat = ir.toNat / 64 := by
  have := ir.isLt
  rw [operandCount, BitVec.extractLsb'_toNat, Nat.shiftRight_eq_div_pow]
  omega

/-- An instruction built over latches in order is well formed. -/
theorem Op.wellFormed_build {opa opb : Latch} (h : latchesInOrder opa opb = true) (op : Op) :
    (op.build opa opb).wellFormed = true := by
  cases op with
  | hlt | push | pop | prn => rfl
  | ldi | mul | add | sub => exact h

end Sys2Proof

namespace Sys2Proof.Machine

/-! ### 40_cycle.md R71 to R76: fetch, decode, execute -/

/-- The latches of one fetch are in order: pc + 2 is within Memory only where pc + 1 is (40 R72). -/
theorem latchesInOrder_latchAt (s : State) (a : Nat) :
    latchesInOrder (s.latchAt a) (s.latchAt (a + 1)) = true := by
  rcases Nat.lt_or_ge a s.cfg.memSize with h | h
  · simp [latchesInOrder, latchAt_of_lt s h]
  · simp [latchesInOrder, latchAt_of_ge s (Nat.le_succ_of_le h)]

/-- A running core with pc past Memory enters OutOfBounds(Fetch, pc). -/
theorem step_of_ge {s : State} (hs : s.status = .running) (hp : s.cfg.memSize ≤ s.pc.toNat) :
    step s = .next (s.raise none (.outOfBounds .fetch s.pc)) := by
  simp only [step, hs, fetch_of_ge hp]

/-- A running core whose fetched latches decode to an instruction executes it. -/
theorem step_of_decode {s : State} {l : Latches} {i : Instr} (hs : s.status = .running)
    (hf : fetch s = .ok l) (hd : decode s.cfg.opcodes l = .ok i) : step s = exec i s := by
  simp only [step, hs, hf, hd]

/-- The fetch within Memory, its operands written out as 40 R72 does. -/
theorem fetch_eq_bytes {s : State} (hp : s.pc.toNat < s.cfg.memSize) :
    fetch s = .ok {
      ir := s.mem.read s.pc.toNat
      opa := if s.pc.toNat + 1 < s.cfg.memSize then some (s.mem.read (s.pc.toNat + 1)) else none
      opb := if s.pc.toNat + 2 < s.cfg.memSize then some (s.mem.read (s.pc.toNat + 2)) else none } := by
  rw [fetch_of_lt hp, latchAt_eq, latchAt_eq]

/-- Settles O2: past Memory the fetch faults before an opcode is latched; within it each latch is the byte at its address or Absent. -/
theorem fetchLatchesThreeBytesOrFaultsPastEnd :
    Obligations.FetchLatchesThreeBytesOrFaultsPastEnd :=
  ⟨fun _ hs hp => step_of_ge hs hp, fun _ hp => fetch_eq_bytes hp⟩

/-- Settles O3: the bytes at pc are what the fetch latches, in order, and the step executes what they decode to. -/
theorem stepRunsTheDecodedInstruction : Obligations.StepRunsTheDecodedInstruction := by
  refine fun s i hs hp hd => ⟨?_, step_of_decode hs (fetch_eq_bytes hp) hd⟩
  obtain ⟨-, hi⟩ := decode_ok hd
  rw [hi]
  refine Op.wellFormed_build ?_ i.op
  simpa only [latchAt_eq] using latchesInOrder_latchAt s (s.pc.toNat + 1)

/-! ### 40_cycle.md R75: operand delivery -/

/-- A wired ALU instruction is the shared ALU handler, with a select code that computes (42 R104 to R107). -/
theorem exec_of_isAlu {s : State} {i : Instr} (halu : i.op.isAlu = true)
    (hw : s.cfg.wires i.op = true) :
    ∃ sel, (∀ x y, ∃ v, alu sel x y = .ok v) ∧
      exec i s = conclude s i.op (aluHandler sel (opaOf i) (opbOf i) s) := by
  have hwired : requireWired s i.op = .ok () := if_pos hw
  cases i with
  | hlt | push | pop | prn | ldi => cases halu
  | mul a b => exact ⟨selMul, fun x y => ⟨_, alu_selMul x y⟩, rfl⟩
  | add a b =>
    refine ⟨selAdd, fun x y => ⟨_, alu_selAdd x y⟩, ?_⟩
    rw [exec, execAdd, show requireWired s .add = .ok () from hwired]
    rfl
  | sub a b =>
    refine ⟨selSub, fun x y => ⟨_, alu_selSub x y⟩, ?_⟩
    rw [exec, execSub, show requireWired s .sub = .ok () from hwired]
    rfl

/-- In FROM_OPERAND_BYTES an ALU handler begins with the delivery of a, then of b (42 R105). -/
theorem aluHandler_delivers {s : State} (hm : s.cfg.aluOperands = .fromOperandBytes)
    (sel : BitVec 2) (a b : Latch) :
    ∃ f : Byte → Byte → Except Cause State,
      aluHandler sel a b s = (do let x ← deliver s 1 a; let y ← deliver s 2 b; f x y) := by
  simp only [aluHandler, aluRegisters, hm, bind_assoc]
  exact ⟨_, rfl⟩

/-- In FIXED_R0_R1 an ALU handler completes, whatever its latches (42 R104). -/
theorem aluHandler_completes {s : State} (hm : s.cfg.aluOperands = .fixedR0R1) {sel : BitVec 2}
    (hsel : ∀ x y, ∃ v, alu sel x y = .ok v) (a b : Latch) :
    ∃ v, aluHandler sel a b s = .ok (s.writeReg 0 v) := by
  obtain ⟨v, hv⟩ := hsel (s.readReg 0) (s.readReg 1)
  exact ⟨v, by simp only [aluHandler, aluRegisters_fixed hm, ok_bind, hv]⟩

section Deliver
variable {s : State} {i : Instr} (hw : s.cfg.wires i.op = true)
  (hm : i.op.isAlu = true → s.cfg.aluOperands = .fromOperandBytes)
include hw hm

/-- An instruction that receives two operands begins with the delivery of a, then of b. -/
theorem exec_delivers_both (hn : i.op.slots = 2) :
    ∃ f : Byte → Byte → Except Cause State, exec i s =
      conclude s i.op (do let x ← deliver s 1 (opaOf i); let y ← deliver s 2 (opbOf i); f x y) := by
  by_cases halu : i.op.isAlu = true
  · obtain ⟨sel, -, he⟩ := exec_of_isAlu halu hw
    obtain ⟨f, hf⟩ := aluHandler_delivers (hm halu) sel (opaOf i) (opbOf i)
    exact ⟨f, by rw [he, hf]⟩
  · cases i with
    | hlt | push | pop | prn => cases hn
    | ldi a imm => exact ⟨_, rfl⟩
    | mul | add | sub => exact absurd rfl halu

/-- An instruction that receives an operand begins with the delivery of a. -/
theorem exec_delivers_first (hn : i.op.slots ≠ 0) :
    ∃ f : Byte → Except Cause State,
      exec i s = conclude s i.op (deliver s 1 (opaOf i) >>= f) := by
  by_cases hn2 : i.op.slots = 2
  · obtain ⟨f, hf⟩ := exec_delivers_both hw hm hn2
    exact ⟨_, hf⟩
  · cases i with
    | hlt => exact absurd rfl hn
    | push a => exact ⟨_, by rw [exec, execPush, registerOperand, bind_assoc]; rfl⟩
    | pop a => exact ⟨_, by rw [exec, execPop, registerOperand, bind_assoc]; rfl⟩
    | prn a => exact ⟨_, by rw [exec, execPrn, registerOperand, bind_assoc]; rfl⟩
    | ldi | mul | add | sub => exact absurd rfl hn2

end Deliver

/-- Settles O28: a handler that receives operands begins with their delivery, a before b; one that receives none is HLT's or computes on R0 and R1. -/
theorem deliveredOperandsAreCheckedInOrder : Obligations.DeliveredOperandsAreCheckedInOrder := by
  refine fun s i hl hw => ⟨fun hk ha => ?_, fun hk ha hb => ?_, fun hk t ht => ?_⟩
  · obtain ⟨hslots, hm⟩ := Config.arity_code_of_ne_zero hl (Nat.one_le_iff_ne_zero.1 hk)
    obtain ⟨f, hf⟩ := exec_delivers_first hw hm (by omega)
    rw [hf, ha]
    rfl
  · obtain ⟨hslots, hm⟩ := Config.arity_code_of_ne_zero hl (op := i.op) (by omega)
    have hn : i.op.slots = 2 := Nat.le_antisymm (slots_le_two i.op) (hslots ▸ hk)
    obtain ⟨f, hf⟩ := exec_delivers_both hw hm hn
    obtain ⟨x, hx⟩ := Option.isSome_iff_exists.1 ha
    rw [hf, hx, hb]
    rfl
  · rcases Config.arity_code_eq_zero hl hk with hop | ⟨halu, hm⟩
    · exact .inr (Instr.eq_hlt_of_op hop)
    · left
      obtain ⟨sel, hsel, he⟩ := exec_of_isAlu halu hw
      obtain ⟨v, hv⟩ := aluHandler_completes hm hsel (opaOf i) (opbOf i)
      rw [he, hv] at ht
      cases ht
      rfl

/-! ### 40_cycle.md R70: a core that is not Running -/

/-- A core that is not Running has no step: the model answers its fault. -/
theorem step_of_stopped {s : State} (hs : s.status ≠ .running) : ∃ r, step s = .fault r := by
  cases hst : s.status with
  | running => exact absurd hst hs
  | halted => exact ⟨.halted, by simp only [step, hst]⟩
  | faulted => exact ⟨.faulted, by simp only [step, hst]⟩

/-- Settles O5: outside Running there is no step, no load before the first step and no run, and reset starts from an empty Memory. -/
theorem stoppedCoreIsLeftOnlyByReset : Obligations.StoppedCoreIsLeftOnlyByReset := by
  intro s hs
  obtain ⟨r, hr⟩ := step_of_stopped hs
  refine ⟨by simp [hr], fun mv r hmv => ?_, _, rfl, rfl, rfl, read_resetWith s.cfg⟩
  cases mv with
  | reset => rfl
  | loadWrite addr b => simp [hostMove, State.beforeFirstStep, hs] at hmv
  | step => simp [hostMove, hr] at hmv
  | run =>
    cases hst : s.status with
    | running => exact absurd hst hs
    | halted | faulted => simp [hostMove, hst] at hmv

/-! ### 40_cycle.md R77 to R79: pc -/

/-- An effect leaves Running and keeps pc, or keeps STATUS and advances pc by the opcode's n + 1. -/
theorem Effect.pc_eq {s t : State} {i : Instr} (h : Effect s i t) :
    (t.status ≠ .running ∧ t.pc = s.pc) ∨
      (t.status = s.status ∧ t.pc = (s.advance (operandCount (s.cfg.opcodes.code i.op))).pc) := by
  cases h with
  | halted | faulted => exact .inl ⟨by simp, rfl⟩
  | loaded | emitted | pushed | popped | computed => exact .inr ⟨rfl, rfl⟩

/-- A step leaves Running and keeps pc, or stays Running and advances pc past a mnemonic's opcode within Memory. -/
theorem step_pc_eq {s t : State} (h : step s = .next t) :
    (t.status ≠ .running ∧ t.pc = s.pc) ∨
      (t.status = .running ∧ s.pc.toNat < s.cfg.memSize ∧
        ∃ op, s.cfg.opcodes.code op = s.opcodeByte ∧
          t.pc = (s.advance (operandCount s.opcodeByte)).pc) := by
  obtain ⟨hrun, ⟨-, rfl⟩ | ⟨-, -, rfl⟩ | ⟨hp, op, hop, he⟩⟩ := step_effect h
  · exact .inl ⟨by simp, rfl⟩
  · exact .inl ⟨by simp, rfl⟩
  · rcases he.pc_eq with hstop | ⟨hst, hpc⟩
    · exact .inl hstop
    · rw [Op.build_op, hop] at hpc
      exact .inr ⟨hst.trans hrun, hp, op, hop, hpc⟩

/-- Settles O6: the advance from within Memory does not wrap, and no mnemonic of a legal map has n above 2. -/
theorem onlyTheLoopAdvancesPc : Obligations.OnlyTheLoopAdvancesPc := by
  rintro s t ⟨hmap, ⟨-, hsize⟩, -⟩ h
  rcases step_pc_eq h with ⟨hstop, hpc⟩ | ⟨hrun, hp, op, hop, hpc⟩
  · exact ⟨fun hrun => absurd hrun hstop, fun _ => hpc⟩
  · refine ⟨fun _ => ?_, fun hstop => absurd hrun hstop⟩
    have hn : s.opcodeByte.toNat / 64 ≤ 2 := by
      rw [← operandCount_toNat, ← hop, OpcodeMap.operandCount_code hmap]
      exact slots_le_two op
    rw [hpc, advance_pc_toNat _ (by omega), operandCount_toNat]
    omega

/-! ### 40_cycle.md section 6: the run -/

/-- No effect changes the build parameters (10 R19). -/
theorem Effect.cfg_eq {s t : State} {i : Instr} (h : Effect s i t) : t.cfg = s.cfg := by
  cases h <;> rfl

/-- No step changes the build parameters (10 R19). -/
theorem step_cfg_eq {s t : State} (h : step s = .next t) : t.cfg = s.cfg := by
  obtain ⟨-, ⟨-, rfl⟩ | ⟨-, -, rfl⟩ | ⟨-, op, -, he⟩⟩ := step_effect h
  · rfl
  · rfl
  · exact he.cfg_eq

/-- A run takes the step there is and goes on from its state. -/
theorem run_succ_of_next {s t : State} (h : step s = .next t) (k : Nat) : run (k + 1) s = run k t := by
  simp only [run, h]

/-- A run from a core that is not Running leaves it as it is. -/
theorem run_of_stopped {s : State} (hs : s.status ≠ .running) (k : Nat) : run k s = s := by
  obtain ⟨r, hr⟩ := step_of_stopped hs
  cases k with
  | zero => rfl
  | succ k => simp only [run, hr]

/-- A step that stays Running began within Memory and raised pc. -/
theorem pc_lt_of_step_running {s t : State} (hsize : s.cfg.memSize ≤ 256) (h : step s = .next t)
    (ht : t.status = .running) : s.pc.toNat < s.cfg.memSize ∧ s.pc.toNat < t.pc.toNat := by
  rcases step_pc_eq h with ⟨hstop, -⟩ | ⟨-, hp, _, -, hpc⟩
  · exact absurd ht hstop
  · refine ⟨hp, ?_⟩
    rw [hpc, advance_pc_toNat _ (by omega)]
    omega

/-- Every running core has a step. -/
theorem step_of_running {s : State} (hs : s.status = .running) : ∃ t, step s = .next t := by
  cases hf : fetch s with
  | error c => exact ⟨_, by simp only [step, hs, hf]; rfl⟩
  | ok l =>
    cases hd : decode s.cfg.opcodes l with
    | error e => exact ⟨_, by simp only [step, hs, hf, hd]; rfl⟩
    | ok i => exact step_of_decode hs hf hd ▸ exec_answers i s

/-- A run that is still Running took a first step that stayed Running. -/
theorem first_step_of_run_running {s : State} {k : Nat} (h : (run (k + 1) s).status = .running) :
    ∃ t, step s = .next t ∧ t.status = .running ∧ (run k t).status = .running := by
  have hstart {u : State} {j : Nat} (hu : (run j u).status = .running) : u.status = .running := by
    by_contra hne
    exact hne (run_of_stopped hne j ▸ hu)
  obtain ⟨t, ht⟩ := step_of_running (hstart h)
  rw [run_succ_of_next ht] at h
  exact ⟨t, ht, hstart h, h⟩

/-- A run still Running after k + 1 steps began the last of them within Memory, and the k before it had raised pc (40 R82). -/
theorem pc_add_lt_of_run_running {s : State} {k : Nat} (hsize : s.cfg.memSize ≤ 256)
    (h : (run (k + 1) s).status = .running) : s.pc.toNat + k < s.cfg.memSize := by
  induction k generalizing s with
  | zero =>
    obtain ⟨t, hstep, ht, -⟩ := first_step_of_run_running h
    exact (pc_lt_of_step_running hsize hstep ht).1
  | succ k ih =>
    obtain ⟨t, hstep, ht, hrest⟩ := first_step_of_run_running h
    have hraised := (pc_lt_of_step_running hsize hstep ht).2
    have hbound := ih (step_cfg_eq hstep ▸ hsize) hrest
    rw [step_cfg_eq hstep] at hbound
    omega

/-- A state has a result for the host exactly when it is not Running (40 R80). -/
theorem result_isSome_iff {s : State} : s.result.isSome = true ↔ s.status ≠ .running := by
  cases hs : s.status <;> simp [State.result, hs]

/-- Settles O8: a run still Running after MEM_SIZE + 1 steps would have raised pc past Memory before its last step. -/
theorem everyRunEndsWithin257Steps : Obligations.EveryRunEndsWithin257Steps := by
  intro s k hsize hk
  have hstop : (run k s).status ≠ .running := by
    obtain ⟨j, rfl⟩ := Nat.exists_eq_succ_of_ne_zero (Nat.ne_zero_of_lt hk)
    intro hrun
    have := pc_add_lt_of_run_running hsize hrun
    omega
  exact ⟨hstop, result_isSome_iff.2 hstop⟩

end Sys2Proof.Machine

namespace Sys2Proof.Machine

/-! ### 41_basic.md: the end of a handler -/

/-- A handler that raises enters its fault from the state before it (60 R125). -/
@[simp] theorem conclude_error (s : State) (op : Op) (c : Cause) :
    conclude s op (.error c) = .next (s.raise (some (s.cfg.opcodes.code op)) c) := rfl

/-- In a legal map, a handler that completes is followed by the advance past its mnemonic's bytes (40 R77). -/
theorem conclude_ok {s : State} (h : s.cfg.opcodes.Legal) (op : Op) (u : State) :
    conclude s op (.ok u) = .next { u with pc := u.pc + BitVec.ofNat 9 (op.slots + 1) } := by
  rw [conclude, advance_code h]

/-- An operand address at the end of Memory is MEM_SIZE in pc's nine bits too. -/
theorem pc_add_eq_memSize {s : State} {k : PcWord} (h : s.pc.toNat + k.toNat = s.cfg.memSize) :
    s.pc + k = BitVec.ofNat 9 s.cfg.memSize := by
  rw [← h, BitVec.ofNat_add, BitVec.ofNat_toNat, BitVec.ofNat_toNat, BitVec.setWidth_eq,
    BitVec.setWidth_eq]

/-! ### 41_basic.md R91: LDI -/

/-- An LDI with its first operand byte Absent raises at that byte's address, whatever the second (40 R75). -/
theorem exec_ldi_none (s : State) (imm : Latch) :
    exec (.ldi none imm) s =
      .next (s.raise (some s.cfg.opcodes.ldi) (.outOfBounds .operand (s.pc + 1))) := rfl

/-- An LDI with its second operand byte Absent raises at that byte's address (40 R75). -/
theorem exec_ldi_some_none (s : State) (a : Byte) :
    exec (.ldi (some a) none) s =
      .next (s.raise (some s.cfg.opcodes.ldi) (.outOfBounds .operand (s.pc + 2))) := rfl

/-- An LDI with both operands delivered is RegIndex, then the register write (41 R91). -/
theorem exec_ldi_some_some (s : State) (a imm : Byte) :
    exec (.ldi (some a) (some imm)) s = conclude s .ldi (do
      let r ← regIndex s.cfg.nregs a
      .ok (s.writeReg r imm)) := rfl

/-- Settles O17: with both operands delivered RegIndex decides between the write and its fault, and an Absent operand is at MEM_SIZE. -/
theorem ldiLoadsItsImmediate : Obligations.LdiLoadsItsImmediate := by
  refine ⟨fun _ _ => rfl, fun s a imm hl ha => ?_, fun s imm hp => ?_, fun s a hp => ?_,
    fun s a imm ha => ?_⟩
  · rw [exec_ldi_some_some, regIndex_of_lt ha, ok_bind, conclude_ok hl]
    rfl
  · rw [exec_ldi_none, pc_add_eq_memSize (k := 1) hp]
  · rw [exec_ldi_some_none, pc_add_eq_memSize (k := 2) hp]
  · rw [exec_ldi_some_some, regIndex_of_ge ha, error_bind, conclude_error]
    rfl

/-! ### 41_basic.md R92: PRN -/

/-- A PRN with its operand byte Absent raises at that byte's address (40 R75). -/
theorem exec_prn_none (s : State) :
    exec (.prn none) s =
      .next (s.raise (some s.cfg.opcodes.prn) (.outOfBounds .operand (s.pc + 1))) := rfl

/-- A PRN with its operand delivered is RegIndex, then the output (41 R92). -/
theorem exec_prn_some (s : State) (a : Byte) :
    exec (.prn (some a)) s = conclude s .prn (do
      let r ← regIndex s.cfg.nregs a
      .ok (s.emit (s.readReg r))) := rfl

/-- Settles O18: with its operand delivered RegIndex decides between the output and its fault, and an Absent operand is at MEM_SIZE. -/
theorem prnEmitsItsRegister : Obligations.PrnEmitsItsRegister := by
  refine ⟨fun _ => rfl, fun s a hl ha => ?_, fun s hp => ?_, fun s a ha => ?_⟩
  · rw [exec_prn_some, regIndex_of_lt ha, ok_bind, conclude_ok hl]
    rfl
  · rw [exec_prn_none, pc_add_eq_memSize (k := 1) hp]
  · rw [exec_prn_some, regIndex_of_ge ha, error_bind, conclude_error]
    rfl

/-! ### 41_basic.md R90: HLT -/

/-- Settles O16: the step executes the mnemonic its opcode byte names, whatever the operand latches, and HLT's handler writes STATUS alone. -/
theorem hltHaltsAndChangesNothingElse : Obligations.HltHaltsAndChangesNothingElse :=
  ⟨rfl, fun _ => rfl, fun _ hl hs hp ho => step_of_code (op := .hlt) hs hp hl ho⟩

/-! ### Frames: what an effect leaves unchanged, field by field -/

/-- The registers an instruction may write (10 R11). -/
def State.destinations (s : State) : Instr → List Nat
  | .hlt => []
  | .push _ => []
  | .pop a => namedRegister s a
  | .prn _ => []
  | .ldi a _ => namedRegister s a
  | .mul a _ => aluDestination s a
  | .add a _ => aluDestination s a
  | .sub a _ => aluDestination s a

/-- A byte below NREGS names its register. -/
theorem mem_namedRegister {s : State} {a : Byte} (h : a.toNat < s.cfg.nregs) :
    a.toNat ∈ namedRegister s (some a) := by
  simp [namedRegister, Nat.not_le.2 h]

/-- The first register of an ALU instruction is its destination. -/
theorem fst_mem_aluDestination {s : State} {a b : Latch} {p : Nat × Nat}
    (h : aluRegisters s a b = .ok p) : p.1 ∈ aluDestination s a := by
  rcases aluRegisters_eq_ok h with ⟨hm, rfl⟩ | ⟨hm, x, y, rfl, rfl, hp, -, hx, -⟩
  · simp [aluDestination, hm]
  · rw [aluDestination, hm, hp]
    exact mem_namedRegister hx

/-- An unchanged register file agrees on every register. -/
theorem sameRegistersOutside_of_regs_eq {rs : List Nat} {s t : State} (h : t.regs = s.regs) :
    sameRegistersOutside rs s t := fun i _ => readReg_of_regs_eq h i

/-- A register file with one register written agrees on every other. -/
theorem sameRegistersOutside_of_set {rs : List Nat} {s t : State} {r : Nat} {v : Byte}
    (h : t.regs = s.regs.set r v) (hr : r ∈ rs) : sameRegistersOutside rs s t := by
  intro i hi
  have hne : i ≠ r := fun he => hi (he ▸ hr)
  exact (readReg_of_regs_eq h i).trans (readReg_writeReg_ne s v hne)

/-- An effect changes no register but its instruction's destinations. -/
theorem Effect.sameRegistersOutside {s t : State} {i : Instr} (h : Effect s i t) :
    sameRegistersOutside (s.destinations i) s t := by
  cases h with
  | halted | faulted | emitted | pushed => exact sameRegistersOutside_of_regs_eq rfl
  | loaded a imm ha => exact sameRegistersOutside_of_set rfl (mem_namedRegister ha)
  | popped a ha => exact sameRegistersOutside_of_set rfl (mem_namedRegister ha)
  | computed _ a b v p hi hp =>
    refine sameRegistersOutside_of_set rfl ?_
    rcases hi with rfl | rfl | rfl <;> exact fst_mem_aluDestination hp

/-- An effect of any instruction but PUSH keeps Memory. -/
theorem Effect.mem_eq {s t : State} {i : Instr} (h : Effect s i t) (hi : i.op ≠ .push) :
    t.mem = s.mem := by
  rcases h.keeps_mem_or_stores with ⟨hmem, -⟩ | ⟨a, rfl, -⟩
  · exact hmem
  · exact absurd rfl hi

/-- An effect of any instruction but PUSH keeps every cell. -/
theorem Effect.sameMemoryOutside {s t : State} {i : Instr} (h : Effect s i t) (hi : i.op ≠ .push)
    (addrs : List Nat) : sameMemoryOutside addrs s t := fun a _ => by rw [h.mem_eq hi]

/-- An effect of any instruction but PUSH and POP keeps sp (10 R12). -/
theorem Effect.sp_eq {s t : State} {i : Instr} (h : Effect s i t) (hpush : i.op ≠ .push)
    (hpop : i.op ≠ .pop) : t.sp = s.sp := by
  cases h with
  | pushed => exact absurd rfl hpush
  | popped => exact absurd rfl hpop
  | halted | faulted | loaded | emitted | computed => rfl

/-- An effect of any instruction but PRN keeps OUT (10 R20). -/
theorem Effect.out_eq {s t : State} {i : Instr} (h : Effect s i t) (hi : i.op ≠ .prn) :
    t.out = s.out := by
  cases h with
  | emitted => exact absurd rfl hi
  | halted | faulted | loaded | pushed | popped | computed => rfl

/-- An effect of any instruction but HLT keeps STATUS and the fault record, or writes those two alone (60 R125). -/
theorem Effect.keeps_status_or_faults {s t : State} {i : Instr} (h : Effect s i t)
    (hi : i.op ≠ .hlt) :
    (t.status = s.status ∧ t.fault = s.fault) ∨
      t = { s with status := .faulted, fault := t.fault } := by
  cases h with
  | halted => exact absurd rfl hi
  | faulted => exact .inr rfl
  | loaded | emitted | pushed | popped | computed => exact .inl ⟨rfl, rfl⟩

/-- Settles O39: the four instructions are none of HLT, PUSH, POP and PRN, the only writers of the other fields, and the registers listed are their destinations. -/
theorem registerInstructionsFrame : Obligations.RegisterInstructionsFrame := by
  intro s t i dest hi h
  have he := exec_effect h
  obtain ⟨rfl, hhlt, hpush, hpop, hprn⟩ : dest = s.destinations i ∧
      i.op ≠ .hlt ∧ i.op ≠ .push ∧ i.op ≠ .pop ∧ i.op ≠ .prn := by
    rcases hi with ⟨a, imm, rfl, rfl⟩ | ⟨a, b, rfl | rfl | rfl, rfl⟩ <;>
      exact ⟨rfl, nofun, nofun, nofun, nofun⟩
  exact ⟨he.sameRegistersOutside, he.sameMemoryOutside hpush [], he.sp_eq hpush hpop,
    he.out_eq hprn, he.cfg_eq, he.keeps_status_or_faults hhlt⟩

/-- Settles O40: HLT and PRN have no destination register and are neither PUSH nor POP; HLT writes STATUS alone, and PRN's effect keeps STATUS or is a fault. -/
theorem hltAndPrnFrame : Obligations.HltAndPrnFrame := by
  intro s t i hi h
  have he := exec_effect h
  obtain ⟨hdest, hpush, hpop⟩ : s.destinations i = [] ∧ i.op ≠ .push ∧ i.op ≠ .pop := by
    rcases hi with rfl | ⟨a, rfl⟩ <;> exact ⟨rfl, nofun, nofun⟩
  refine ⟨hdest ▸ he.sameRegistersOutside, he.sameMemoryOutside hpush [], he.sp_eq hpush hpop,
    he.cfg_eq, ?_, fun hne => he.keeps_status_or_faults fun hop => hne (Instr.eq_hlt_of_op hop)⟩
  rintro rfl
  cases h
  exact ⟨rfl, rfl, rfl⟩

end Sys2Proof.Machine

namespace Sys2Proof.Machine

/-! ### 42_alu.md R100 to R103: the ALU's results -/

/-- ADD's select code answers the sum mod 256 (42 R101). -/
theorem alu_selAdd_eq_ofNat (a b : Byte) :
    alu selAdd a b = .ok (BitVec.ofNat 8 (a.toNat + b.toNat)) := by
  rw [alu_selAdd, trunc8_add]

/-- SUB's select code answers the difference mod 256, written with the borrow added (42 R102). -/
theorem alu_selSub_eq_ofNat (a b : Byte) :
    alu selSub a b = .ok (BitVec.ofNat 8 (a.toNat + 256 - b.toNat)) := by
  rw [alu_selSub, trunc8_sub]

/-- MUL's select code answers the product mod 256 (42 R103). -/
theorem alu_selMul_eq_ofNat (a b : Byte) :
    alu selMul a b = .ok (BitVec.ofNat 8 (a.toNat * b.toNat)) := by
  rw [alu_selMul, trunc8_mul]

/-- The borrow is dropped again where there is none. -/
theorem toNat_ofNat_add_256_sub (a b : Byte) :
    (BitVec.ofNat 8 (a.toNat + 256 - b.toNat)).toNat =
      if b.toNat ≤ a.toNat then a.toNat - b.toNat else a.toNat + 256 - b.toNat := by
  have := a.isLt
  have := b.isLt
  rw [BitVec.toNat_ofNat]
  split <;> omega

/-- Settles O25: the three select codes narrow the exact result to eight bits, and 11 is none of them. -/
theorem aluComputesModulo256 : Obligations.AluComputesModulo256 := fun a b =>
  ⟨⟨_, alu_selAdd_eq_ofNat a b, BitVec.toNat_ofNat _ _⟩,
    ⟨_, alu_selSub_eq_ofNat a b, toNat_ofNat_add_256_sub a b⟩,
    ⟨_, alu_selMul_eq_ofNat a b, BitVec.toNat_ofNat _ _⟩, rfl⟩

/-! ### 42_alu.md R105: the registers of an ALU instruction in FROM_OPERAND_BYTES, and its faults in order -/

section FromOperandBytes
variable {s : State} (hm : s.cfg.aluOperands = .fromOperandBytes)
include hm

/-- Two operand bytes below NREGS are the two registers. -/
theorem aluRegisters_of_lt {a b : Byte} (ha : a.toNat < s.cfg.nregs) (hb : b.toNat < s.cfg.nregs) :
    aluRegisters s (some a) (some b) = .ok (a.toNat, b.toNat) := by
  simp only [aluRegisters_from hm, regIndex_of_lt ha, regIndex_of_lt hb]

/-- With pc at the last cell the first operand byte is Absent, at MEM_SIZE. -/
theorem aluRegisters_none (hp : s.pc.toNat + 1 = s.cfg.memSize) (b : Latch) :
    aluRegisters s none b = .error (.outOfBounds .operand (BitVec.ofNat 9 s.cfg.memSize)) := by
  simp only [aluRegisters_from hm, pc_add_eq_memSize (k := 1) hp]

/-- With pc at the last cell but one the second operand byte is Absent, at MEM_SIZE, and the first is not yet checked. -/
theorem aluRegisters_some_none (hp : s.pc.toNat + 2 = s.cfg.memSize) (a : Byte) :
    aluRegisters s (some a) none =
      .error (.outOfBounds .operand (BitVec.ofNat 9 s.cfg.memSize)) := by
  simp only [aluRegisters_from hm, pc_add_eq_memSize (k := 2) hp]

/-- A first operand byte that names no register raises, whatever the second. -/
theorem aluRegisters_of_ge {a : Byte} (ha : s.cfg.nregs ≤ a.toNat) (b : Byte) :
    aluRegisters s (some a) (some b) = .error (.outOfBounds .register (a.setWidth 9)) := by
  simp only [aluRegisters_from hm, regIndex_of_ge ha]

/-- A second operand byte that names no register raises after a first that names one. -/
theorem aluRegisters_of_lt_of_ge {a b : Byte} (ha : a.toNat < s.cfg.nregs)
    (hb : s.cfg.nregs ≤ b.toNat) :
    aluRegisters s (some a) (some b) = .error (.outOfBounds .register (b.setWidth 9)) := by
  simp only [aluRegisters_from hm, regIndex_of_lt ha, regIndex_of_ge hb]

end FromOperandBytes

/-! ### 42_alu.md R104 to R107: MUL, ADD and SUB -/

section AluHandler
variable {s : State} {op : Op} {sel : BitVec 2} {a b : Latch}

/-- An ALU handler that has its registers writes the ALU's result to the first and moves pc past three bytes. -/
theorem conclude_aluHandler_ok {ra rb : Nat} {v : Byte} (hl : s.cfg.opcodes.Legal)
    (hop : op.slots = 2) (hr : aluRegisters s a b = .ok (ra, rb))
    (hv : alu sel (s.readReg ra) (s.readReg rb) = .ok v) :
    conclude s op (aluHandler sel a b s) =
      .next { s with regs := s.regs.set ra v, pc := s.pc + 3 } := by
  have hu : aluHandler sel a b s = .ok (s.writeReg ra v) := by
    rw [aluHandler, hr, ok_bind, hv, ok_bind]
  rw [hu, conclude_ok hl, hop]
  rfl

/-- An ALU handler that has no registers enters the fault their lookup raised. -/
theorem conclude_aluHandler_error {c : Cause} (hr : aluRegisters s a b = .error c) :
    conclude s op (aluHandler sel a b s) = .next (s.raise (some (s.cfg.opcodes.code op)) c) := by
  rw [aluHandler, hr, error_bind, conclude_error]

end AluHandler

/-- MUL is the shared ALU handler with its select code (42 R104, R105). -/
theorem exec_mul (s : State) (a b : Latch) :
    exec (.mul a b) s = conclude s .mul (aluHandler selMul a b s) := rfl

/-- A wired ADD is the shared ALU handler with its select code (42 R106). -/
theorem exec_add_of_wired {s : State} (hw : s.cfg.wireAddSub = true) (a b : Latch) :
    exec (.add a b) s = conclude s .add (aluHandler selAdd a b s) := by
  rw [exec, execAdd, requireWired, if_pos (Config.wires_of_wireAddSub hw .add), ok_bind]

/-- A wired SUB is the shared ALU handler with its select code (42 R107). -/
theorem exec_sub_of_wired {s : State} (hw : s.cfg.wireAddSub = true) (a b : Latch) :
    exec (.sub a b) s = conclude s .sub (aluHandler selSub a b s) := by
  rw [exec, execSub, requireWired, if_pos (Config.wires_of_wireAddSub hw .sub), ok_bind]

/-- A mnemonic that is not wired raises IllegalInstruction (40 R74). -/
theorem requireWired_of_not_wired {s : State} {op : Op} (hw : s.cfg.wires op = false) :
    requireWired s op = .error .illegalInstruction := by
  simp [requireWired, hw]

/-- An unwired ADD is an illegal opcode, whatever its latches (42 R106). -/
theorem exec_add_of_not_wired {s : State} (hw : s.cfg.wireAddSub = false) (a b : Latch) :
    exec (.add a b) s = .next (s.raise (some s.cfg.opcodes.add) .illegalInstruction) := by
  rw [exec, execAdd, requireWired_of_not_wired (op := .add) hw, error_bind, conclude_error]
  rfl

/-- An unwired SUB is an illegal opcode, whatever its latches (42 R107). -/
theorem exec_sub_of_not_wired {s : State} (hw : s.cfg.wireAddSub = false) (a b : Latch) :
    exec (.sub a b) s = .next (s.raise (some s.cfg.opcodes.sub) .illegalInstruction) := by
  rw [exec, execSub, requireWired_of_not_wired (op := .sub) hw, error_bind, conclude_error]
  rfl

/-- Settles O19: in FIXED_R0_R1 the registers are R0 and R1 without a look at the latches. -/
theorem mulFixedMultipliesR0ByR1 : Obligations.MulFixedMultipliesR0ByR1 :=
  ⟨fun _ _ => rfl, fun _ a b hl hm =>
    conclude_aluHandler_ok hl rfl (aluRegisters_fixed hm a b) (alu_selMul_eq_ofNat _ _)⟩

/-- Settles O20: MUL is the ALU handler, and the lookup of its registers decides between the product and each fault. -/
theorem mulFromOperandsMultipliesItsRegisters :
    Obligations.MulFromOperandsMultipliesItsRegisters := by
  refine ⟨fun _ _ => rfl, fun s a b ha hb hl hm => ?_, fun s b hm hp => ?_, fun s a hm hp => ?_,
    fun s a b hm ha => ?_, fun s a b hm ha hb => ?_⟩ <;> rw [exec_mul]
  · exact conclude_aluHandler_ok hl rfl (aluRegisters_of_lt hm ha hb) (alu_selMul_eq_ofNat _ _)
  · exact conclude_aluHandler_error (aluRegisters_none hm hp b)
  · exact conclude_aluHandler_error (aluRegisters_some_none hm hp a)
  · exact conclude_aluHandler_error (aluRegisters_of_ge hm ha b)
  · exact conclude_aluHandler_error (aluRegisters_of_lt_of_ge hm ha hb)

/-- Settles O21: unwired ADD ends at the dispatch lookup; wired it is the ALU handler, in either mode. -/
theorem addAddsWhenWired : Obligations.AddAddsWhenWired := by
  refine ⟨fun _ _ => rfl, fun s a b hw => exec_add_of_not_wired hw a b, fun s a b hl hw hm => ?_,
    fun s a b ha hb hl hw hm => ?_, fun s b hw hm hp => ?_, fun s a hw hm hp => ?_,
    fun s a b hw hm ha => ?_, fun s a b hw hm ha hb => ?_⟩ <;> rw [exec_add_of_wired hw]
  · exact conclude_aluHandler_ok hl rfl (aluRegisters_fixed hm a b) (alu_selAdd_eq_ofNat _ _)
  · exact conclude_aluHandler_ok hl rfl (aluRegisters_of_lt hm ha hb) (alu_selAdd_eq_ofNat _ _)
  · exact conclude_aluHandler_error (aluRegisters_none hm hp b)
  · exact conclude_aluHandler_error (aluRegisters_some_none hm hp a)
  · exact conclude_aluHandler_error (aluRegisters_of_ge hm ha b)
  · exact conclude_aluHandler_error (aluRegisters_of_lt_of_ge hm ha hb)

/-- Settles O22: unwired SUB ends at the dispatch lookup; wired it is the ALU handler, in either mode. -/
theorem subSubtractsWhenWired : Obligations.SubSubtractsWhenWired := by
  refine ⟨fun _ _ => rfl, fun s a b hw => exec_sub_of_not_wired hw a b, fun s a b hl hw hm => ?_,
    fun s a b ha hb hl hw hm => ?_, fun s b hw hm hp => ?_, fun s a hw hm hp => ?_,
    fun s a b hw hm ha => ?_, fun s a b hw hm ha hb => ?_⟩ <;> rw [exec_sub_of_wired hw]
  · exact conclude_aluHandler_ok hl rfl (aluRegisters_fixed hm a b) (alu_selSub_eq_ofNat _ _)
  · exact conclude_aluHandler_ok hl rfl (aluRegisters_of_lt hm ha hb) (alu_selSub_eq_ofNat _ _)
  · exact conclude_aluHandler_error (aluRegisters_none hm hp b)
  · exact conclude_aluHandler_error (aluRegisters_some_none hm hp a)
  · exact conclude_aluHandler_error (aluRegisters_of_ge hm ha b)
  · exact conclude_aluHandler_error (aluRegisters_of_lt_of_ge hm ha hb)

/-! ### 42_alu.md R104 and R105 together: MUL of R0 and R1 -/

/-- The state after MUL of R0 and R1: the product in R0, pc past three bytes. -/
def State.mulR0R1 (s : State) : State :=
  { s.writeReg 0 (BitVec.ofNat 8 ((s.readReg 0).toNat * (s.readReg 1).toNat)) with pc := s.pc + 3 }

/-- With operand bytes 00 and 01 the registers are R0 and R1 in both modes. -/
theorem aluRegisters_zero_one {s : State} (h : 2 ≤ s.cfg.nregs) :
    aluRegisters s (some 0) (some 1) = .ok (0, 1) := by
  cases hm : s.cfg.aluOperands with
  | fixedR0R1 => exact aluRegisters_fixed hm _ _
  | fromOperandBytes =>
    exact aluRegisters_of_lt hm (a := 0) (b := 1) (Nat.lt_of_lt_of_le Nat.zero_lt_two h) h

/-- MUL with operand bytes 00 and 01 multiplies R0 by R1, in every mode. -/
theorem exec_mul_zero_one {s : State} (hl : s.cfg.opcodes.Legal) (h : 2 ≤ s.cfg.nregs) :
    exec (.mul (some 0) (some 1)) s = .next s.mulR0R1 :=
  conclude_aluHandler_ok hl rfl (aluRegisters_zero_one h) (alu_selMul_eq_ofNat _ _)

/-- Settles O26: the mode is in no register, so the product of R0 and R1 is the same state in both modes. -/
theorem mulOfR0AndR1IsTheSameInBothModes : Obligations.MulOfR0AndR1IsTheSameInBothModes := by
  rintro s ⟨hl, -, ⟨hn, -⟩, -⟩ hlen
  have hmul (mode : AluOperands) : exec (.mul (some 0) (some 1)) (s.withAluOperands mode) =
      .next (s.mulR0R1.withAluOperands mode) :=
    exec_mul_zero_one (s := s.withAluOperands mode) hl hn
  have hr0 : s.mulR0R1.readReg 0 = BitVec.ofNat 8 ((s.readReg 0).toNat * (s.readReg 1).toNat) :=
    readReg_writeReg_self s _ (by omega)
  refine ⟨s.mulR0R1, hmul _, hmul _, rfl, ?_, List.length_set,
    sameRegistersOutside_of_set rfl (List.mem_singleton_self 0)⟩
  rw [hr0, BitVec.toNat_ofNat]

end Sys2Proof.Machine

namespace Sys2Proof.Machine

/-! ### 43_stack.md: what a PUSH or a POP does to sp -/

/-- A PUSH completes, with its operand present and sp lowered by exactly one, or faults and writes STATUS and the record alone. -/
theorem Effect.push_completes_or_faults {s t : State} {a : Latch} (h : Effect s (.push a) t) :
    (a ≠ none ∧ t.status = s.status ∧ t.fault = s.fault ∧ t.sp = s.sp - 1 ∧
      t.sp.toNat + 1 = s.sp.toNat) ∨ t = { s with status := .faulted, fault := t.fault } := by
  cases h with
  | faulted => exact .inr rfl
  | pushed x _ hfloor _ =>
    refine .inl ⟨nofun, rfl, rfl, rfl, ?_⟩
    simp only [advance_sp, writeSp_sp]
    bv_omega
  | computed _ x y v p hi => simp at hi

/-- A POP completes, with sp within Memory and raised by exactly one, or faults and writes STATUS and the record alone. -/
theorem Effect.pop_completes_or_faults {s t : State} {a : Latch} (h : Effect s (.pop a) t) :
    (s.sp.toNat < s.cfg.memSize ∧ t.status = s.status ∧ t.fault = s.fault ∧ t.sp = s.sp + 1 ∧
      t.sp.toNat = s.sp.toNat + 1) ∨ t = { s with status := .faulted, fault := t.fault } := by
  cases h with
  | faulted => exact .inr rfl
  | popped x _ htop hm =>
    refine .inl ⟨hm, rfl, rfl, rfl, ?_⟩
    simp only [advance_sp, writeSp_sp]
    bv_omega
  | computed _ x y v p hi => simp at hi

/-! ### 43_stack.md R113: the stack's bound -/

/-- No step lowers pc (40 R77, R78). -/
theorem step_pc_le {s t : State} (hl : s.cfg.Legal) (h : step s = .next t) :
    s.pc.toNat ≤ t.pc.toNat := by
  obtain ⟨hrun, hstop⟩ := onlyTheLoopAdvancesPc s t hl h
  by_cases ht : t.status = .running
  · have := (hrun ht).1
    omega
  · rw [hstop ht]

/-- A step keeps sp, or it is a PUSH of two bytes within Memory that lowers sp by one and raises pc by two, or it raises an sp within Memory by one. -/
theorem step_moves_sp {s t : State} (hl : s.cfg.Legal) (h : step s = .next t) :
    t.sp = s.sp ∨
      (t.sp.toNat + 1 = s.sp.toNat ∧ s.pc.toNat + 1 < s.cfg.memSize ∧
        t.pc.toNat = s.pc.toNat + 2) ∨
      (t.sp.toNat = s.sp.toNat + 1 ∧ s.sp.toNat < s.cfg.memSize) := by
  obtain ⟨hrun, ⟨-, rfl⟩ | ⟨-, -, rfl⟩ | ⟨-, op, hop, he⟩⟩ := step_effect h
  · exact .inl rfl
  · exact .inl rfl
  · cases op with
    | push =>
      rcases he.push_completes_or_faults with ⟨ha, hst, -, -, hsp⟩ | ht
      · have hp : s.pc.toNat + 1 < s.cfg.memSize := by
          by_contra hend
          exact ha (latchAt_of_ge s (Nat.le_of_not_lt hend))
        have hpc := ((onlyTheLoopAdvancesPc s t hl h).1 (hst.trans hrun)).1
        rw [← operandCount_toNat, State.opcodeByte, ← hop, OpcodeMap.operandCount_code hl.1] at hpc
        exact .inr (.inl ⟨hsp, hp, hpc⟩)
      · exact .inl (by rw [ht])
    | pop =>
      rcases he.pop_completes_or_faults with ⟨hm, -, -, -, hsp⟩ | ht
      · exact .inr (.inr ⟨hsp, hm⟩)
      · exact .inl (by rw [ht])
    | hlt | prn | ldi | mul | add | sub => exact .inl (he.sp_eq nofun nofun)

/-- A state within the stack's bound has sp at least SP_INIT - MEM_SIZE / 2. -/
theorem State.stackBound.spInit_le {s : State} (hb : s.stackBound) :
    s.cfg.spInit.toNat ≤ s.sp.toNat + s.cfg.memSize / 2 := by
  have := hb.1
  omega

/-- A PUSH pays for its byte of stack with two of pc, both within Memory; every other step keeps or raises sp. -/
theorem State.stackBound.of_step {s t : State} (hb : s.stackBound) (hl : s.cfg.Legal)
    (h : step s = .next t) : t.stackBound := by
  obtain ⟨hlow, hhigh⟩ := hb
  have hpc := step_pc_le hl h
  rw [State.stackBound, step_cfg_eq h]
  rcases step_moves_sp hl h with hsp | ⟨hsp, hp, hpc2⟩ | ⟨hsp, hm⟩
  · rw [hsp]
    omega
  · omega
  · omega

/-- Settles O48: the bound is kept by every step, and read off the next state it bounds that state's sp. -/
theorem everyStepKeepsTheStackBound : Obligations.EveryStepKeepsTheStackBound := by
  intro s t hl hb h
  have ht := hb.of_step hl h
  have hcfg := step_cfg_eq h
  have hlow := ht.spInit_le
  have hhigh := ht.2
  rw [hcfg] at hlow hhigh
  obtain ⟨-, ⟨-, hsize⟩, -⟩ := hl
  exact ⟨ht, hcfg, hlow, by omega, hhigh⟩

/-- OutOfBounds(StackPush) is raised at or below the floor, or with the store past Memory. -/
theorem Raises.of_place_stackPush {s : State} {i : Instr} {c : Cause} (h : Raises s i c)
    (hc : c.place = .stackPush) :
    s.sp ≤ s.cfg.stackFloor ∨ (s.cfg.stackFloor < s.sp ∧ s.cfg.memSize ≤ pushAddress s) := by
  cases h with
  | stackFloor _ hs => exact .inl hs
  | pushPastEnd _ hs hm => exact .inr ⟨hs, hm⟩
  | operandA | operandB | register | stackTop | popPastEnd | unwired => cases hc

/-- A step enters OutOfBounds(StackPush) only with sp at or below STACK_FLOOR or above MEM_SIZE. -/
theorem sp_of_step_faults_at_stackPush {s t : State} (h : step s = .next t)
    (ht : t.status = .faulted) (hplace : t.fault.place = .stackPush) :
    s.sp.toNat ≤ s.cfg.stackFloor.toNat ∨ s.cfg.memSize < s.sp.toNat := by
  obtain ⟨hrun, ⟨-, rfl⟩ | ⟨-, -, rfl⟩ | ⟨-, op, -, hx⟩⟩ := step_next h
  · cases hplace
  · cases hplace
  · obtain ⟨c, hc, rfl⟩ := exec_raises hx (by simp [hrun]) ht
    rcases hc.of_place_stackPush hplace with hfloor | ⟨hfloor, hm⟩
    · exact .inl (BitVec.le_def.1 hfloor)
    · have hpos : 0 < s.sp.toNat := Nat.zero_lt_of_lt (BitVec.lt_def.1 hfloor)
      simp only [pushAddress] at hm
      omega

/-- Settles O49: reset begins at SP_INIT, and a state within the bound has sp above the floor and within Memory. -/
theorem boundedStackNeverFaultsOnPush : Obligations.BoundedStackNeverFaultsOnPush := by
  refine ⟨fun cfg ⟨_, _, _, hsp⟩ => ⟨Nat.le_add_right _ _, hsp⟩, ?_⟩
  intro s t hl hb hfloor h ht hplace
  have hlow := hb.spInit_le
  have hhigh := hb.2
  rcases sp_of_step_faults_at_stackPush h ht hplace with hle | hgt <;> omega

/-! ### 43_stack.md: the frames of PUSH and POP -/

/-- An effect stores to no cell but the one below sp (20 R33). -/
theorem Effect.sameMemoryOutside_pushAddress {s t : State} {i : Instr} (h : Effect s i t)
    (hw : s.mem.wf s.cfg.memSize) : Machine.sameMemoryOutside [pushAddress s] s t := by
  intro x hx
  rcases h.keeps_mem_or_stores with ⟨hmem, -⟩ | ⟨a, -, hst⟩
  · rw [hmem]
  · rw [hst.read hw, if_neg (List.ne_of_not_mem_cons hx)]

/-- Settles O41: PUSH has no destination register, is not PRN, and stores below sp alone; it lowers sp or faults. -/
theorem pushFrame : Obligations.PushFrame := by
  intro s t a hw h
  have he := exec_effect h
  exact ⟨he.sameRegistersOutside, he.sameMemoryOutside_pushAddress hw, he.out_eq nofun, he.cfg_eq,
    he.push_completes_or_faults.imp_left And.right⟩

/-- Settles O42: POP's only destination register is the one named, it is neither PUSH nor PRN, and it raises sp or faults. -/
theorem popFrame : Obligations.PopFrame := by
  intro s t a h
  have he := exec_effect h
  exact ⟨he.sameRegistersOutside, he.sameMemoryOutside nofun [], he.out_eq nofun, he.cfg_eq,
    he.pop_completes_or_faults.imp_left And.right⟩

/-! ### 43_stack.md R110 and R111: the states PUSH and POP complete in -/

/-- The state after a PUSH of register `r` completes (43 R110). -/
def State.pushed (s : State) (r : Nat) : State :=
  { s with mem := s.mem.write (pushAddress s) (s.readReg r), sp := s.sp - 1, pc := s.pc + 2 }

/-- The state after a POP into register `r` completes (43 R111). -/
def State.popped (s : State) (r : Nat) : State :=
  { s with regs := s.regs.set r (s.mem.read s.sp.toNat), sp := s.sp + 1, pc := s.pc + 2 }

section Fields
variable (s : State) (r : Nat)
@[simp] theorem pushed_cfg : (s.pushed r).cfg = s.cfg := rfl
@[simp] theorem pushed_sp : (s.pushed r).sp = s.sp - 1 := rfl
@[simp] theorem pushed_pc : (s.pushed r).pc = s.pc + 2 := rfl
@[simp] theorem popped_sp : (s.popped r).sp = s.sp + 1 := rfl
end Fields

/-- A POP loads the cell at sp into its register. -/
theorem readReg_popped_self {s : State} {r : Nat} (h : r < s.regs.length) :
    (s.popped r).readReg r = s.mem.read s.sp.toNat :=
  readReg_writeReg_self s _ h

/-- A POP leaves every other register. -/
theorem readReg_popped_ne (s : State) {r i : Nat} (h : i ≠ r) :
    (s.popped r).readReg i = s.readReg i :=
  readReg_writeReg_ne s _ h

/-- A register above STACK_FLOOR and within Memory is pushed. -/
theorem exec_push_completes {s : State} {a : Byte} (hl : s.cfg.opcodes.Legal)
    (ha : a.toNat < s.cfg.nregs) (hfloor : s.cfg.stackFloor.toNat < s.sp.toNat)
    (hsp : s.sp.toNat ≤ s.cfg.memSize) : exec (.push (some a)) s = .next (s.pushed a.toNat) := by
  have hm : pushAddress s < s.cfg.memSize := by
    simp only [pushAddress]
    omega
  rw [exec_push_of_checks ha (BitVec.lt_def.2 hfloor), memWrite_of_lt s _ _ hm, ok_bind,
    conclude_ok hl]
  rfl

/-- A cell of Memory below 0xFF is popped. -/
theorem exec_pop_completes {s : State} {a : Byte} (hl : s.cfg.opcodes.Legal)
    (ha : a.toNat < s.cfg.nregs) (htop : s.sp ≠ 0xFF) (hm : s.sp.toNat < s.cfg.memSize) :
    exec (.pop (some a)) s = .next (s.popped a.toNat) := by
  rw [exec_pop_of_checks ha htop, memRead_of_lt s _ hm, ok_bind, conclude_ok hl]
  rfl

/-- After a completed PUSH the cell below the old sp holds the register, and every other cell is as before. -/
theorem read_pushed {s : State} (hw : s.mem.wf s.cfg.memSize) (r x : Nat) :
    (s.pushed r).mem.read x = if x = s.sp.toNat - 1 then s.readReg r else s.mem.read x :=
  Memory.read_write hw x

/-! ### 43_stack.md R110: PUSH -/

/-- A PUSH with its operand byte Absent raises at that byte's address (40 R75). -/
theorem exec_push_none (s : State) :
    exec (.push none) s =
      .next (s.raise (some s.cfg.opcodes.push) (.outOfBounds .operand (s.pc + 1))) := rfl

/-- A PUSH of a byte that names no register raises before the stack check. -/
theorem exec_push_of_ge {s : State} {a : Byte} (ha : s.cfg.nregs ≤ a.toNat) :
    exec (.push (some a)) s =
      .next (s.raise (some s.cfg.opcodes.push) (.outOfBounds .register (a.setWidth 9))) := by
  simp only [exec, execPush, registerOperand_eq, regIndex_of_ge ha, error_bind, conclude_error]
  rfl

/-- A PUSH of a register at or below the floor raises before the store. -/
theorem exec_push_of_le_floor {s : State} {a : Byte} (ha : a.toNat < s.cfg.nregs)
    (hs : s.sp ≤ s.cfg.stackFloor) :
    exec (.push (some a)) s =
      .next (s.raise (some s.cfg.opcodes.push) (.outOfBounds .stackPush (s.sp.setWidth 9))) := by
  simp only [exec, execPush, registerOperand_eq, regIndex_of_lt ha, ok_bind, if_pos hs,
    conclude_error]
  rfl

/-- Settles O23: PUSH completes in `State.pushed`, or its checks in order name the fault; an Absent operand is at MEM_SIZE. -/
theorem pushStoresBelowTheStackPointer : Obligations.PushStoresBelowTheStackPointer := by
  refine ⟨fun _ => rfl, rfl, fun s a ha hl hw hfloor hsp => ?_, fun s hp => ?_,
    fun _ _ => exec_push_of_ge, fun s a ha hs => exec_push_of_le_floor ha (BitVec.le_def.2 hs)⟩
  · exact ⟨_, exec_push_completes hl ha hfloor hsp, rfl, read_pushed hw _⟩
  · rw [exec_push_none, pc_add_eq_memSize (k := 1) hp]

/-! ### 43_stack.md R111: POP -/

/-- A POP with its operand byte Absent raises at that byte's address (40 R75). -/
theorem exec_pop_none (s : State) :
    exec (.pop none) s =
      .next (s.raise (some s.cfg.opcodes.pop) (.outOfBounds .operand (s.pc + 1))) := rfl

/-- A POP into a byte that names no register raises before the stack check. -/
theorem exec_pop_of_ge {s : State} {a : Byte} (ha : s.cfg.nregs ≤ a.toNat) :
    exec (.pop (some a)) s =
      .next (s.raise (some s.cfg.opcodes.pop) (.outOfBounds .register (a.setWidth 9))) := by
  simp only [exec, execPop, registerOperand_eq, regIndex_of_ge ha, error_bind, conclude_error]
  rfl

/-- A POP into a register with sp at 0xFF raises before the load. -/
theorem exec_pop_of_top {s : State} {a : Byte} (ha : a.toNat < s.cfg.nregs) (hs : s.sp = 0xFF) :
    exec (.pop (some a)) s =
      .next (s.raise (some s.cfg.opcodes.pop) (.outOfBounds .stackPop (s.sp.setWidth 9))) := by
  simp only [exec, execPop, registerOperand_eq, regIndex_of_lt ha, ok_bind, if_pos hs,
    conclude_error]
  rfl

/-- Settles O24: POP completes in `State.popped`, or its checks in order name the fault; an Absent operand is at MEM_SIZE. -/
theorem popLoadsFromTheStackPointer : Obligations.PopLoadsFromTheStackPointer := by
  refine ⟨fun _ => rfl, fun s a ha hl htop hm => exec_pop_completes hl ha htop hm, fun s hp => ?_,
    fun _ _ => exec_pop_of_ge, fun s a ha hs => ?_⟩
  · rw [exec_pop_none, pc_add_eq_memSize (k := 1) hp]
  · rw [exec_pop_of_top ha hs, hs]
    rfl

/-! ### 43_stack.md R112: last in, first out -/

/-- The sp a PUSH leaves is one lower. -/
theorem pushed_sp_toNat {s : State} (r : Nat) (h : 0 < s.sp.toNat) :
    (s.pushed r).sp.toNat = s.sp.toNat - 1 := by
  rw [pushed_sp]
  bv_omega

/-- The cell a PUSH leaves sp at holds the register pushed. -/
theorem read_pushed_sp {s : State} (hw : s.mem.wf s.cfg.memSize) (r : Nat) (h : 0 < s.sp.toNat) :
    (s.pushed r).mem.read (s.pushed r).sp.toNat = s.readReg r := by
  rw [read_pushed hw, pushed_sp_toNat r h, if_pos rfl]

/-- A PUSH leaves the cell at the sp before it, where the PUSH before stored. -/
theorem read_pushed_old_sp {s : State} (hw : s.mem.wf s.cfg.memSize) (r : Nat)
    (h : 0 < s.sp.toNat) : (s.pushed r).mem.read s.sp.toNat = s.mem.read s.sp.toNat := by
  rw [read_pushed hw, if_neg (by omega)]

/-- A POP with sp below another sp within Memory completes: neither its top check nor its range check is met. -/
theorem exec_pop_of_lt {s : State} {a v : Byte} (hl : s.cfg.opcodes.Legal)
    (ha : a.toNat < s.cfg.nregs) (hv : s.sp.toNat < v.toNat) (hm : v.toNat ≤ s.cfg.memSize) :
    exec (.pop (some a)) s = .next (s.popped a.toNat) := by
  have htop : s.sp ≠ 0xFF := by bv_omega
  exact exec_pop_completes hl ha htop (Nat.lt_of_lt_of_le hv hm)

/-- The state after PUSH of register `r` and POP into register `q`: `q` is `r`'s copy, sp is as before, and the cell below it keeps the byte. -/
def State.copiedByStack (s : State) (r q : Nat) : State :=
  { s with mem := (s.pushed r).mem, regs := s.regs.set q (s.readReg r), pc := s.pc + 4 }

@[simp] theorem copiedByStack_sp (s : State) (r q : Nat) : (s.copiedByStack r q).sp = s.sp := rfl

/-- A POP right after a PUSH loads the register pushed and undoes the decrement. -/
theorem popped_pushed {s : State} (hw : s.mem.wf s.cfg.memSize) (r q : Nat) (h : 0 < s.sp.toNat) :
    (s.pushed r).popped q = s.copiedByStack r q := by
  have hsp : s.sp - 1 + 1 = s.sp := BitVec.sub_add_cancel s.sp 1
  have hpc : s.pc + 2 + 2 = s.pc + 4 := BitVec.add_assoc s.pc 2 2
  rw [State.popped, read_pushed_sp hw r h, pushed_sp, hsp, pushed_pc, hpc]
  rfl

/-- PUSH of a register, then POP into a register, both complete where the PUSH's own checks pass. -/
theorem exec_push_then_pop {s : State} {a b : Byte} (hw : s.mem.wf s.cfg.memSize)
    (hl : s.cfg.opcodes.Legal) (ha : a.toNat < s.cfg.nregs) (hb : b.toNat < s.cfg.nregs)
    (hfloor : s.cfg.stackFloor.toNat < s.sp.toNat) (hsp : s.sp.toNat ≤ s.cfg.memSize) :
    exec (.push (some a)) s = .next (s.pushed a.toNat) ∧
      exec (.pop (some b)) (s.pushed a.toNat) = .next (s.copiedByStack a.toNat b.toNat) := by
  have hpos : 0 < s.sp.toNat := Nat.zero_lt_of_lt hfloor
  have hlt : (s.pushed a.toNat).sp.toNat < s.sp.toNat := by
    rw [pushed_sp_toNat _ hpos]
    omega
  refine ⟨exec_push_completes hl ha hfloor hsp, ?_⟩
  rw [exec_pop_of_lt (s := s.pushed a.toNat) hl hb hlt hsp, popped_pushed hw _ _ hpos]

/-- Settles O37: the POP copies the register onto itself and leaves sp as before. -/
theorem pushThenPopRestoresRegisterAndStackPointer :
    Obligations.PushThenPopRestoresRegisterAndStackPointer := by
  intro s a hw hl ha hfloor hsp
  obtain ⟨hpush, hpop⟩ := exec_push_then_pop hw hl ha ha hfloor hsp
  refine ⟨_, _, hpush, hpop, set_readReg s a.toNat, rfl, rfl, rfl, fun x hx => ?_⟩
  exact (read_pushed hw _ x).trans (if_neg (List.ne_of_not_mem_cons hx))

/-- Settles O38: the inner pair copies `b` to `c` below the cell that holds `a`, and the outer POP loads that cell into `d`. -/
theorem nestedPushesPopInReverse : Obligations.NestedPushesPopInReverse := by
  intro s a b c d hw hl hlen hregs hcd hfloor hsp
  obtain ⟨ha, hb, hc, hd⟩ : a.toNat < s.cfg.nregs ∧ b.toNat < s.cfg.nregs ∧
      c.toNat < s.cfg.nregs ∧ d.toNat < s.cfg.nregs := by simpa using hregs
  have hne : c.toNat ≠ d.toNat := fun h => hcd (BitVec.eq_of_toNat_eq h)
  have hpos : 0 < s.sp.toNat := Nat.zero_lt_of_lt hfloor
  have hsp1 : (s.pushed a.toNat).sp.toNat = s.sp.toNat - 1 := pushed_sp_toNat _ hpos
  have hw1 : (s.pushed a.toNat).mem.wf s.cfg.memSize :=
    Memory.wf_write hw (Nat.lt_of_lt_of_le (Nat.sub_one_lt_of_lt hpos) hsp)
  obtain ⟨hpush, hpop⟩ := exec_push_then_pop (s := s.pushed a.toNat) hw1 hl hb hc
    (by rw [hsp1, pushed_cfg]; omega) (by rw [hsp1, pushed_cfg]; omega)
  refine ⟨_, _, _, ((s.pushed a.toNat).copiedByStack b.toNat c.toNat).popped d.toNat,
    exec_push_completes hl ha (by omega) hsp, hpush, hpop,
    exec_pop_of_lt (v := s.sp) hl hd ?_ hsp, ?_, ?_, ?_⟩
  · rw [copiedByStack_sp]
    omega
  · calc _ = ((s.pushed a.toNat).copiedByStack b.toNat c.toNat).readReg c.toNat :=
          readReg_popped_ne _ hne
      _ = s.readReg b.toNat := readReg_writeReg_self s _ (hlen ▸ hc)
  · calc _ = ((s.pushed a.toNat).pushed b.toNat).mem.read (s.pushed a.toNat).sp.toNat :=
          readReg_popped_self (List.length_set.trans hlen ▸ hd)
      _ = (s.pushed a.toNat).mem.read (s.pushed a.toNat).sp.toNat :=
          read_pushed_old_sp hw1 _ (by omega)
      _ = s.readReg a.toNat := read_pushed_sp hw _ hpos
  · rw [popped_sp, copiedByStack_sp, pushed_sp, BitVec.sub_add_cancel]

end Sys2Proof.Machine

namespace Sys2Proof

/-! ### 30_encoding.md R54 and R56: bytes outside the dispatch table -/

/-- The mnemonics that are not wired are ADD and SUB without WIRE_ADD_SUB (92 D8). -/
theorem Config.unwired_of_wires_eq_false {cfg : Config} {op : Op} (h : cfg.wires op = false) :
    (op = .add ∨ op = .sub) ∧ cfg.wireAddSub = false := by
  cases op with
  | add => exact ⟨.inl rfl, h⟩
  | sub => exact ⟨.inr rfl, h⟩
  | hlt | push | pop | prn | ldi | mul => cases h

/-- A byte in the dispatch table is the opcode of a wired mnemonic. -/
theorem Config.code_of_dispatches {cfg : Config} {ir : Byte} (h : cfg.dispatches ir = true) :
    ∃ op, cfg.opcodes.code op = ir ∧ cfg.wires op = true := by
  cases hf : cfg.opcodes.find ir with
  | none => simp [Config.dispatches, hf] at h
  | some op => exact ⟨op, OpcodeMap.code_of_find hf, by simpa [Config.dispatches, hf] using h⟩

/-- A mnemonic that is no ALU one receives all its slots in either mode (30 R55). -/
theorem Config.arity_code_of_not_isAlu {cfg : Config} (h : cfg.opcodes.Legal) {op : Op}
    (halu : ¬ op.isAlu = true) : cfg.arity (cfg.opcodes.code op) = op.slots := by
  simp only [Config.arity, OpcodeMap.aluFlag_code h, OpcodeMap.operandCount_code h, halu,
    Bool.false_eq_true, false_and, if_false]

/-- An ALU mnemonic has two operand slots. -/
theorem Op.slots_of_isAlu {op : Op} (h : op.isAlu = true) : op.slots = 2 := by
  cases op with
  | mul | add | sub => rfl
  | hlt | push | pop | prn | ldi => cases h

/-- In a legal map PUSH's opcode is PUSH's alone. -/
theorem OpcodeMap.code_eq_push_iff {m : OpcodeMap} (h : m.Legal) {op : Op} :
    m.code op = m.push ↔ op = .push :=
  ⟨fun he => Machine.code_injective h (op' := .push) he, fun he => he ▸ rfl⟩

/-- In a legal map POP's opcode is POP's alone. -/
theorem OpcodeMap.code_eq_pop_iff {m : OpcodeMap} (h : m.Legal) {op : Op} :
    m.code op = m.pop ↔ op = .pop :=
  ⟨fun he => Machine.code_injective h (op' := .pop) he, fun he => he ▸ rfl⟩

end Sys2Proof

namespace Sys2Proof.Machine

/-! ### 60_exceptions.md R122: IllegalInstruction -/

/-- Settles O4: the lookup finds no mnemonic, or an unwired ADD or SUB, whose handler raises the same fault before it looks at its latches. -/
theorem undispatchedOpcodeRaisesIllegalInstruction :
    Obligations.UndispatchedOpcodeRaisesIllegalInstruction := by
  intro s hs hp hno
  obtain ⟨t, ht⟩ := step_of_running hs
  rw [ht]
  obtain ⟨-, ⟨hge, -⟩ | ⟨-, -, rfl⟩ | ⟨-, op, hop, hx⟩⟩ := step_next ht
  · exact absurd hp (Nat.not_lt.2 hge)
  · rfl
  · obtain ⟨rfl | rfl, hw⟩ := hno op hop
    · rw [← hx, State.opcodeByte, ← hop]
      exact exec_add_of_not_wired hw _ _
    · rw [← hx, State.opcodeByte, ← hop]
      exact exec_sub_of_not_wired hw _ _

/-! ### 60_exceptions.md R125: fault entry -/

/-- A handler raises IllegalInstruction, or OutOfBounds at a place other than Fetch. -/
theorem Raises.illegal_or_outOfBounds {s : State} {i : Instr} {c : Cause} (h : Raises s i c) :
    c = .illegalInstruction ∨ ∃ place value, place ≠ .fetch ∧ c = .outOfBounds place value := by
  cases h with
  | unwired => exact .inl rfl
  | operandA | operandB | register | stackFloor | pushPastEnd | stackTop | popPastEnd =>
    refine .inr ⟨_, _, ?_, rfl⟩
    simp

/-- A step that faults enters OutOfBounds(Fetch) without an opcode, or IllegalInstruction or an OutOfBounds of another place with the opcode at pc. -/
theorem step_raises {s t : State} (h : step s = .next t) (ht : t.status = .faulted) :
    t = s.raise none (.outOfBounds .fetch s.pc) ∨
      t = s.raise (some s.opcodeByte) .illegalInstruction ∨
      ∃ place value, place ≠ .fetch ∧ t = s.raise (some s.opcodeByte) (.outOfBounds place value) := by
  obtain ⟨hrun, ⟨-, rfl⟩ | ⟨-, -, rfl⟩ | ⟨-, op, hop, hx⟩⟩ := step_next h
  · exact .inl rfl
  · exact .inr (.inl rfl)
  · obtain ⟨c, hc, rfl⟩ := exec_raises hx (by simp [hrun]) ht
    rw [Op.build_op, hop]
    rcases hc.illegal_or_outOfBounds with rfl | ⟨place, value, hplace, rfl⟩
    · exact .inr (.inl rfl)
    · exact .inr (.inr ⟨place, value, hplace, rfl⟩)

/-- Fault entry records some kind of fault. -/
theorem raise_kind_ne_none (s : State) (ir : Option Byte) (c : Cause) :
    (s.raise ir c).fault.kind ≠ .none := c.kind_ne_none

/-- Settles O43: each of the three faults that a step enters leaves R125's record, and only OutOfBounds(Fetch) leaves it without an opcode. -/
theorem faultEntryIsPrecise : Obligations.FaultEntryIsPrecise := by
  refine ⟨fun s ir place value => ⟨rfl, rfl, rfl⟩, fun s t h ht => ?_⟩
  rcases step_raises h ht with rfl | rfl | ⟨place, value, hplace, rfl⟩ <;>
    refine ⟨rfl, raise_kind_ne_none _ _ _, rfl, ?_, ?_, rfl⟩
  · exact fun hk => absurd rfl hk
  · simp [Cause.kind, Cause.place]
  · exact fun _ => ⟨rfl, rfl⟩
  · simp [Cause.kind]
  · exact fun hk => absurd rfl hk
  · simp [Cause.place, hplace]

/-! ### 60_exceptions.md R123: UnsupportedOperation -/

/-- An effect that is no fault entry keeps the fault record. -/
theorem Effect.fault_eq {s t : State} {i : Instr} (h : Effect s i t) (ht : t.status ≠ .faulted) :
    t.fault = s.fault := by
  cases h with
  | faulted => exact absurd rfl ht
  | halted | loaded | emitted | pushed | popped | computed => rfl

/-- A step that does not fault keeps the fault record. -/
theorem step_fault_eq {s t : State} (h : step s = .next t) (ht : t.status ≠ .faulted) :
    t.fault = s.fault := by
  obtain ⟨-, ⟨-, rfl⟩ | ⟨-, -, rfl⟩ | ⟨-, op, -, he⟩⟩ := step_effect h
  · exact absurd rfl ht
  · exact absurd rfl ht
  · exact he.fault_eq ht

/-- Settles O45: none of the faults a step enters is UnsupportedOperation, and a step without a fault keeps the record. -/
theorem noStepRaisesUnsupportedOperation : Obligations.NoStepRaisesUnsupportedOperation := by
  refine ⟨fun s t h hk => ?_, fun s ir value => rfl⟩
  by_cases ht : t.status = .faulted
  · rcases step_raises h ht with rfl | rfl | ⟨place, value, -, rfl⟩ <;> cases hk
  · have hf := step_fault_eq h ht
    exact ⟨hf ▸ hk, hf⟩

/-! ### 60_exceptions.md R127: the checks of one handler, in order -/

/-- The handler's answer `r` is the one that the first fault found calls for: that fault where there is one, and otherwise a completed state with STATUS as before. -/
def Finds (s : State) : Option Cause → Except Cause State → Prop
  | some c, r => r = .error c
  | none, r => ∃ u, r = .ok u ∧ u.status = s.status

section Finds
variable {s : State} {o : Option Cause}

/-- One check: the handler raises its fault where it is met, and goes on where it is not. -/
theorem Finds.check {p : Prop} [Decidable p] {c : Cause} {r : Except Cause State}
    (hmet : p → r = .error c) (hnot : ¬ p → Finds s o r) : Finds s (if p then some c else o) r := by
  by_cases hp : p
  · rw [if_pos hp]
    exact hmet hp
  · rw [if_neg hp]
    exact hnot hp

/-- No check is left, and the handler completes. -/
theorem Finds.done {u : State} (h : u.status = s.status) : Finds s none (.ok u) := ⟨u, rfl, h⟩

/-- The delivery of the operand `k` bytes after the opcode checks that it is within Memory (40 R75). -/
theorem Finds.deliver {k : PcWord} {f : Byte → Except Cause State}
    (h : Finds s o (f (s.mem.read (s.pc.toNat + k.toNat)))) :
    Finds s (if s.cfg.memSize ≤ s.pc.toNat + k.toNat then
        some (.outOfBounds .operand (BitVec.ofNat 9 (s.pc.toNat + k.toNat))) else o)
      (deliver s k (s.latchAt (s.pc.toNat + k.toNat)) >>= f) := by
  refine .check (fun hend => ?_) fun hin => ?_
  · rw [latchAt_of_ge s hend, deliver_none, error_bind, BitVec.ofNat_add, BitVec.ofNat_toNat,
      BitVec.ofNat_toNat, BitVec.setWidth_eq, BitVec.setWidth_eq]
  · rw [latchAt_of_lt s (Nat.lt_of_not_le hin), deliver_some, ok_bind]
    exact h

/-- RegIndex checks that the operand byte names a register (10 R13). -/
theorem Finds.regIndex {b : Byte} {f : Nat → Except Cause State} (h : Finds s o (f b.toNat)) :
    Finds s (if s.cfg.nregs ≤ b.toNat then some (.outOfBounds .register (b.setWidth 9)) else o)
      (regIndex s.cfg.nregs b >>= f) := by
  refine .check (fun hge => ?_) fun hlt => ?_
  · rw [regIndex_of_ge hge, error_bind]
  · rw [regIndex_of_lt (Nat.lt_of_not_le hlt), ok_bind]
    exact h

/-- A check that the handler itself writes out, as PUSH and POP do for sp (43 R110, R111). -/
theorem Finds.raiseIf {p : Prop} [Decidable p] {c : Cause} {r : Except Cause State}
    (h : Finds s o r) : Finds s (if p then some c else o) (if p then .error c else r) :=
  .check (fun hp => if_pos hp) fun hp => (if_neg hp).symm ▸ h

/-- MemRead checks that the address is within Memory (20 R31). -/
theorem Finds.memRead {place : FaultPlace} {a : Nat} {f : Byte → Except Cause State}
    (h : Finds s o (f (s.mem.read a))) :
    Finds s (if s.cfg.memSize ≤ a then some (.outOfBounds place (BitVec.ofNat 9 a)) else o)
      (memRead s place a >>= f) := by
  refine .check (fun hge => ?_) fun hlt => ?_
  · rw [memRead_of_ge s place hge, error_bind]
  · rw [memRead_of_lt s place (Nat.lt_of_not_le hlt), ok_bind]
    exact h

/-- MemWrite checks that the address is within Memory (20 R32). -/
theorem Finds.memWrite {place : FaultPlace} {a : Nat} {v : Byte} {f : State → Except Cause State}
    (h : Finds s o (f { s with mem := s.mem.write a v })) :
    Finds s (if s.cfg.memSize ≤ a then some (.outOfBounds place (BitVec.ofNat 9 a)) else o)
      (memWrite s place a v >>= f) := by
  refine .check (fun hge => ?_) fun hlt => ?_
  · rw [memWrite_of_ge s place v hge, error_bind]
  · rw [memWrite_of_lt s place v (Nat.lt_of_not_le hlt), ok_bind]
    exact h

end Finds

/-! ### 60_exceptions.md R127: the walk of `firstFault` past the dispatch lookup -/

/-- R127's checks of sp for the mnemonic `op`: none but for PUSH and POP. -/
def stackFault (s : State) (op : Op) : Option Cause :=
  if op = .push ∧ s.sp ≤ s.cfg.stackFloor then some (.outOfBounds .stackPush (s.sp.setWidth 9))
  else if op = .pop ∧ s.sp = 0xFF then some (.outOfBounds .stackPop (s.sp.setWidth 9))
  else if op = .push ∧ s.cfg.memSize ≤ pushAddress s then
    some (.outOfBounds .stackPush (BitVec.ofNat 9 (pushAddress s)))
  else if op = .pop ∧ s.cfg.memSize ≤ s.sp.toNat then
    some (.outOfBounds .stackPop (s.sp.setWidth 9))
  else none

/-- What is left of R127's checks once the lookup has found the mnemonic `op`, of which `k` operands are delivered. -/
def handlerFault (s : State) (op : Op) (k : Nat) : Option Cause :=
  let p := s.pc.toNat
  let a := s.mem.read (p + 1)
  let b := s.mem.read (p + 2)
  let size := s.cfg.memSize
  if 1 ≤ k ∧ size ≤ p + 1 then some (.outOfBounds .operand (BitVec.ofNat 9 (p + 1)))
  else if 2 ≤ k ∧ size ≤ p + 2 then some (.outOfBounds .operand (BitVec.ofNat 9 (p + 2)))
  else if 1 ≤ k ∧ s.cfg.nregs ≤ a.toNat then some (.outOfBounds .register (a.setWidth 9))
  else if 2 ≤ k ∧ op.isAlu = true ∧ s.cfg.nregs ≤ b.toNat then
    some (.outOfBounds .register (b.setWidth 9))
  else stackFault s op

/-- With pc past Memory the first fault is the fetch's. -/
theorem firstFault_of_ge {s : State} (hp : s.cfg.memSize ≤ s.pc.toNat) :
    firstFault s = some (.outOfBounds .fetch s.pc) := if_pos hp

/-- With an opcode outside the dispatch table the first fault is the lookup's. -/
theorem firstFault_of_not_dispatched {s : State} (hp : s.pc.toNat < s.cfg.memSize)
    (hd : s.cfg.dispatches s.opcodeByte = false) : firstFault s = some .illegalInstruction :=
  (if_neg (Nat.not_le.2 hp)).trans (if_pos hd)

/-- With a wired mnemonic's opcode the first fault is the first of that mnemonic's checks. -/
theorem firstFault_of_code {s : State} {op : Op} (hl : s.cfg.opcodes.Legal)
    (hp : s.pc.toNat < s.cfg.memSize) (hop : s.cfg.opcodes.code op = s.opcodeByte)
    (hw : s.cfg.wires op = true) :
    firstFault s = handlerFault s op (s.cfg.arity (s.cfg.opcodes.code op)) := by
  have hb : s.mem.read s.pc.toNat = s.cfg.opcodes.code op := hop.symm
  simp only [firstFault, handlerFault, stackFault, if_neg (Nat.not_le.2 hp), hb,
    Config.dispatches_code hl, hw, OpcodeMap.aluFlag_code hl, OpcodeMap.code_eq_push_iff hl,
    OpcodeMap.code_eq_pop_iff hl, pushAddress, Bool.true_eq_false, if_false]
  -- The two sides differ only in how they decide the tests for PUSH and POP.
  congr!

section HandlerFault
variable {s : State} {op : Op}

/-- Only PUSH and POP check sp. -/
theorem stackFault_of_ne (hpush : op ≠ .push) (hpop : op ≠ .pop) : stackFault s op = none := by
  simp [stackFault, hpush, hpop]

/-- A handler that receives no operand and checks no sp has no check. -/
theorem handlerFault_zero (hpush : op ≠ .push) (hpop : op ≠ .pop) : handlerFault s op 0 = none := by
  simp [handlerFault, stackFault_of_ne hpush hpop]

/-- A one-operand handler checks its operand, then the register it names, then sp. -/
theorem registerOperand_finds {f : Nat → Except Cause State}
    (h : Finds s (stackFault s op) (f (s.mem.read (s.pc.toNat + 1)).toNat)) :
    Finds s (handlerFault s op 1) (registerOperand s (s.latchAt (s.pc.toNat + 1)) >>= f) := by
  simp only [handlerFault, registerOperand, bind_assoc, le_refl, Nat.not_ofNat_le_one, true_and,
    false_and, if_false]
  exact .deliver (k := 1) (.regIndex h)

/-- PUSH checks sp against the floor, then against the end of Memory (43 R110). -/
theorem push_finds {v : Byte} : Finds s (stackFault s .push)
    (if s.sp ≤ s.cfg.stackFloor then .error (.outOfBounds .stackPush (s.sp.setWidth 9))
      else do
        let t ← memWrite s .stackPush (pushAddress s) v
        .ok (t.writeSp (s.sp - 1))) := by
  simp only [stackFault, reduceCtorEq, true_and, false_and, if_false]
  exact .raiseIf (.memWrite (.done rfl))

/-- POP checks sp against its greatest value, then against the end of Memory (43 R111). -/
theorem pop_finds {r : Nat} : Finds s (stackFault s .pop)
    (if s.sp = 0xFF then .error (.outOfBounds .stackPop (s.sp.setWidth 9))
      else do
        let v ← memRead s .stackPop s.sp.toNat
        .ok ((s.writeReg r v).writeSp (s.sp + 1))) := by
  simp only [stackFault, reduceCtorEq, true_and, false_and, if_false, ← BitVec.ofNat_toNat 9 s.sp]
  exact .raiseIf (.memRead (.done rfl))

/-- LDI checks both operands, then the register the first names (41 R91). -/
theorem ldi_finds : Finds s (handlerFault s .ldi 2) (do
    let x ← deliver s 1 (s.latchAt (s.pc.toNat + 1))
    let v ← deliver s 2 (s.latchAt (s.pc.toNat + 2))
    let r ← regIndex s.cfg.nregs x
    .ok (s.writeReg r v)) := by
  simp only [handlerFault, stackFault_of_ne (op := .ldi) nofun nofun, Op.isAlu, Nat.one_le_ofNat,
    le_refl, Bool.false_eq_true, true_and, false_and, and_false, if_false]
  exact .deliver (k := 1) (.deliver (k := 2) (.regIndex (.done rfl)))

/-- A wired ALU handler checks both operands and then both registers, or in FIXED_R0_R1 nothing (42 R104, R105). -/
theorem aluHandler_finds {sel : BitVec 2} (hl : s.cfg.opcodes.Legal) (halu : op.isAlu = true)
    (hsel : ∀ x y, ∃ v, alu sel x y = .ok v) :
    Finds s (handlerFault s op (s.cfg.arity (s.cfg.opcodes.code op)))
      (aluHandler sel (s.latchAt (s.pc.toNat + 1)) (s.latchAt (s.pc.toNat + 2)) s) := by
  have hpush : op ≠ .push := by rintro rfl; cases halu
  have hpop : op ≠ .pop := by rintro rfl; cases halu
  cases hm : s.cfg.aluOperands with
  | fixedR0R1 =>
    obtain ⟨v, hv⟩ := aluHandler_completes hm hsel (s.latchAt (s.pc.toNat + 1))
      (s.latchAt (s.pc.toNat + 2))
    rw [Config.arity_code_of_fixedR0R1 hl hm, if_pos halu, handlerFault_zero hpush hpop, hv]
    exact .done rfl
  | fromOperandBytes =>
    rw [Config.arity_code_of_fromOperandBytes hl hm, Op.slots_of_isAlu halu]
    simp only [handlerFault, stackFault_of_ne hpush hpop, halu, aluHandler, aluRegisters, hm,
      bind_assoc, ok_bind, Nat.one_le_ofNat, le_refl, true_and]
    refine .deliver (k := 1) (.deliver (k := 2) (.regIndex (.regIndex ?_)))
    obtain ⟨v, hv⟩ := hsel (s.readReg (s.mem.read (s.pc.toNat + 1)).toNat)
      (s.readReg (s.mem.read (s.pc.toNat + 2)).toNat)
    rw [hv]
    exact .done rfl

end HandlerFault

/-! ### 60_exceptions.md R127: each step follows the walk -/

/-- What a step answers where `o` is the first fault: its entry with the opcode `ir`, or a state that is not Faulted. -/
def Follows (s : State) (ir : Option Byte) : Option Cause → Host.Outcome State Fault Refusal → Prop
  | some c, r => r = .next (s.raise ir c)
  | none, r => ∃ t, r = .next t ∧ t.status ≠ .faulted

section Follows
variable {s : State} {op : Op}

/-- A handler that answers what the checks find is followed by R125's entry or by the advance. -/
theorem Finds.conclude {o : Option Cause} {r : Except Cause State} (h : Finds s o r)
    (hs : s.status = .running) :
    Follows s (some (s.cfg.opcodes.code op)) o (conclude s op r) := by
  cases o with
  | some c => exact congrArg (Machine.conclude s op) h
  | none =>
    obtain ⟨u, rfl, hu⟩ := h
    exact ⟨_, rfl, by simp [hu, hs]⟩

/-- A wired ALU instruction answers what its checks find. -/
theorem exec_follows_of_isAlu (hl : s.cfg.opcodes.Legal) (hs : s.status = .running)
    (hw : s.cfg.wires op = true) (halu : op.isAlu = true) :
    Follows s (some (s.cfg.opcodes.code op))
      (handlerFault s op (s.cfg.arity (s.cfg.opcodes.code op)))
      (exec (op.build (s.latchAt (s.pc.toNat + 1)) (s.latchAt (s.pc.toNat + 2))) s) := by
  have hn := Op.slots_of_isAlu halu
  obtain ⟨sel, hsel, he⟩ := exec_of_isAlu (s := s)
    (i := op.build (s.latchAt (s.pc.toNat + 1)) (s.latchAt (s.pc.toNat + 2)))
    (by rwa [Op.build_op]) (by rwa [Op.build_op])
  rw [he, Op.build_op, opaOf_build (by simp [hn]), opbOf_build hn]
  exact (aluHandler_finds hl halu hsel).conclude hs

/-- A wired instruction answers what its checks find: each handler makes them in the order of the walk. -/
theorem exec_follows (hl : s.cfg.opcodes.Legal) (hs : s.status = .running)
    (hw : s.cfg.wires op = true) :
    Follows s (some (s.cfg.opcodes.code op))
      (handlerFault s op (s.cfg.arity (s.cfg.opcodes.code op)))
      (exec (op.build (s.latchAt (s.pc.toNat + 1)) (s.latchAt (s.pc.toNat + 2))) s) := by
  by_cases halu : op.isAlu = true
  · exact exec_follows_of_isAlu hl hs hw halu
  · rw [Config.arity_code_of_not_isAlu hl halu]
    cases op with
    | mul | add | sub => exact absurd rfl halu
    | hlt =>
      rw [Op.slots, handlerFault_zero (op := .hlt) nofun nofun]
      exact ⟨s.halt, rfl, nofun⟩
    | prn =>
      refine (registerOperand_finds ?_).conclude hs
      rw [stackFault_of_ne (op := .prn) nofun nofun]
      exact .done rfl
    | ldi => exact ldi_finds.conclude hs
    | push => exact (registerOperand_finds push_finds).conclude hs
    | pop => exact (registerOperand_finds pop_finds).conclude hs

/-- Every step of a running core answers what R127's walk finds. -/
theorem step_follows (hl : s.cfg.opcodes.Legal) (hs : s.status = .running) :
    Follows s (if s.pc.toNat < s.cfg.memSize then some s.opcodeByte else none) (firstFault s)
      (step s) := by
  rcases Nat.lt_or_ge s.pc.toNat s.cfg.memSize with hp | hp
  · rw [if_pos hp]
    cases hd : s.cfg.dispatches s.opcodeByte with
    | false =>
      rw [firstFault_of_not_dispatched hp hd]
      refine undispatchedOpcodeRaisesIllegalInstruction s hs hp fun op hop => ?_
      exact Config.unwired_of_wires_eq_false (by rw [← Config.dispatches_code hl, hop, hd])
    | true =>
      obtain ⟨op, hop, hw⟩ := Config.code_of_dispatches hd
      rw [step_of_code hs hp hl hop.symm, firstFault_of_code hl hp hop hw, ← hop]
      exact exec_follows hl hs hw
  · rw [firstFault_of_ge hp, if_neg (Nat.not_lt.2 hp)]
    exact step_of_ge hs hp

end Follows

/-- Settles O44: the fetch, the lookup and each handler make their checks in the order of the walk. -/
theorem stepRecordsTheFirstFaultInPriorityOrder :
    Obligations.StepRecordsTheFirstFaultInPriorityOrder := by
  rintro s ⟨hl, -⟩ hs
  have h := step_follows hl hs
  exact ⟨fun c hc => by rwa [hc] at h, fun hc => by rwa [hc] at h⟩

end Sys2Proof.Machine

namespace Sys2Proof

/-! ### 30_encoding.md sections 1 and 4: decode and encode are inverse -/

/-- Bytes decode as the latches they fill: opcode, first operand byte, second (20 R34). -/
theorem decodeBytes_cons (m : OpcodeMap) (ir : Byte) (rest : List Byte) :
    decodeBytes m (ir :: rest) = decode m { ir := ir, opa := rest[0]?, opb := rest[1]? } := rfl

/-- In a legal map a mnemonic's opcode decodes to that mnemonic over the operand latches. -/
theorem decode_code {m : OpcodeMap} (h : m.Legal) (op : Op) (a b : Latch) :
    decode m { ir := m.code op, opa := a, opb := b } = .ok (op.build a b) := by
  rw [decode, OpcodeMap.find_code h]

/-- Two latches in order are read back from the bytes they stand for. -/
theorem latchBytes_getElem? {a b : Latch} (h : latchesInOrder a b = true) :
    (latchBytes a b)[0]? = a ∧ (latchBytes a b)[1]? = b := by
  cases a with
  | some x => cases b <;> exact ⟨rfl, rfl⟩
  | none =>
    cases b with
    | none => exact ⟨rfl, rfl⟩
    | some y => cases h

/-- One latch is read back from the byte it stands for. -/
theorem latchBytes_none_getElem? (a : Latch) : (latchBytes a none)[0]? = a := by
  cases a <;> rfl

/-- A well-formed instruction is its mnemonic over the bytes of its operands. -/
theorem Instr.build_operandBytes {i : Instr} (h : i.wellFormed = true) :
    i.op.build i.operandBytes[0]? i.operandBytes[1]? = i := by
  cases i with
  | hlt => rfl
  | push a => exact congrArg Instr.push (latchBytes_none_getElem? a)
  | pop a => exact congrArg Instr.pop (latchBytes_none_getElem? a)
  | prn a => exact congrArg Instr.prn (latchBytes_none_getElem? a)
  | ldi a b => exact congrArg₂ Instr.ldi (latchBytes_getElem? h).1 (latchBytes_getElem? h).2
  | mul a b => exact congrArg₂ Instr.mul (latchBytes_getElem? h).1 (latchBytes_getElem? h).2
  | add a b => exact congrArg₂ Instr.add (latchBytes_getElem? h).1 (latchBytes_getElem? h).2
  | sub a b => exact congrArg₂ Instr.sub (latchBytes_getElem? h).1 (latchBytes_getElem? h).2

/-- Settles O12: the opcode byte finds the mnemonic, and the operand bytes fill its latches again. -/
theorem decodeOfEncodeIsTheInstruction : Obligations.DecodeOfEncodeIsTheInstruction := by
  intro m i hm hi
  rw [encode, decodeBytes_cons, decode_code hm, Instr.build_operandBytes hi]

/-- The first two of a list's bytes, as latches, are in order. -/
theorem latchesInOrder_getElem? (bytes : List Byte) :
    latchesInOrder bytes[0]? bytes[1]? = true := by
  cases bytes <;> rfl

/-- A list's first byte, as a latch, stands for that byte. -/
theorem latchBytes_getElem?_none (bytes : List Byte) :
    latchBytes bytes[0]? none = bytes.take 1 := by
  cases bytes <;> rfl

/-- A list's first two bytes, as latches, stand for those bytes. -/
theorem latchBytes_getElem?_getElem? (bytes : List Byte) :
    latchBytes bytes[0]? bytes[1]? = bytes.take 2 := by
  cases bytes with
  | nil => rfl
  | cons x rest => cases rest <;> rfl

/-- A mnemonic built over bytes holds as many of them as it has slots. -/
theorem operandBytes_build (op : Op) (bytes : List Byte) :
    (op.build bytes[0]? bytes[1]?).operandBytes = bytes.take op.slots := by
  cases op with
  | hlt => rfl
  | push | pop | prn => exact latchBytes_getElem?_none bytes
  | ldi | mul | add | sub => exact latchBytes_getElem?_getElem? bytes

/-- Settles O13: the instruction is the opcode's mnemonic over the bytes after it, of which it holds one for each slot. -/
theorem encodeOfDecodeIsTheBytes : Obligations.EncodeOfDecodeIsTheBytes := by
  intro m ir rest i hm h
  obtain ⟨rfl, hi⟩ := decode_ok h
  have hbytes : i.operandBytes = rest.take i.op.slots :=
    (congrArg Instr.operandBytes hi).trans (operandBytes_build i.op rest)
  refine ⟨hi ▸ Op.wellFormed_build (latchesInOrder_getElem? rest) i.op, ?_⟩
  rw [encode, hbytes, OpcodeMap.instrLength_code hm, List.take_succ_cons]

/-! ### 30_encoding.md section 3: the bytes in the dispatch table -/

/-- The bytes in the dispatch table are the opcodes of the wired mnemonics (30 R54, R56). -/
theorem Config.dispatches_iff {cfg : Config} (h : cfg.opcodes.Legal) {ir : Byte} :
    cfg.dispatches ir = true ↔ ∃ op, cfg.opcodes.code op = ir ∧ cfg.wires op = true := by
  refine ⟨Config.code_of_dispatches, ?_⟩
  rintro ⟨op, rfl, hw⟩
  rw [Config.dispatches_code h, hw]

/-- The opcodes of the wired mnemonics, as numbers. -/
def Config.wiredOpcodes (cfg : Config) : List Nat :=
  (Op.all.filter fun op => cfg.wires op).map fun op => (cfg.opcodes.code op).toNat

/-- The bytes in the dispatch table are the wired opcodes, each once, since a legal map's opcodes are distinct. -/
theorem Config.dispatched_perm_wiredOpcodes {cfg : Config} (h : cfg.opcodes.Legal) :
    ((List.range 256).filter fun b => cfg.dispatches (BitVec.ofNat 8 b)).Perm cfg.wiredOpcodes := by
  have hnodup : cfg.wiredOpcodes.Nodup := by
    have hall : (Op.all.map fun op => (cfg.opcodes.code op).toNat).Nodup := by
      have := h.1.map (f := BitVec.toNat) fun _ _ => BitVec.eq_of_toNat_eq
      rwa [List.map_map] at this
    exact hall.sublist (List.filter_sublist.map _)
  refine (List.perm_ext_iff_of_nodup (List.nodup_range.filter _) hnodup).2 fun b => ?_
  simp only [wiredOpcodes, List.mem_filter, List.mem_range, List.mem_map,
    Config.dispatches_iff h, Op.mem_all, true_and]
  constructor
  · rintro ⟨hb, op, hop, hw⟩
    exact ⟨op, hw, by rw [hop, BitVec.toNat_ofNat, Nat.mod_eq_of_lt hb]⟩
  · rintro ⟨op, hw, rfl⟩
    exact ⟨(cfg.opcodes.code op).isLt, op, by rw [BitVec.ofNat_toNat, BitVec.setWidth_eq], hw⟩

/-- Every byte that is no wired mnemonic's opcode is illegal (30 R56). -/
theorem Config.length_illegalBytes {cfg : Config} (h : cfg.opcodes.Legal) :
    ((List.range 256).filter fun b => !cfg.dispatches (BitVec.ofNat 8 b)).length =
      256 - cfg.wiredOpcodes.length := by
  have hsum := List.length_eq_length_filter_add (l := List.range 256)
    fun b => cfg.dispatches (BitVec.ofNat 8 b)
  have hlen := (Config.dispatched_perm_wiredOpcodes h).length_eq
  rw [List.length_range] at hsum
  omega

/-- Settles O10: six mnemonics are wired by default, and all eight with WIRE_ADD_SUB. -/
theorem illegalOpcodeBytesAreTheOthers : Obligations.IllegalOpcodeBytesAreTheOthers := by
  have h := OpcodeMap.standard_legal
  refine ⟨fun b => ?_, Config.length_illegalBytes (cfg := .standard) h,
    Config.length_illegalBytes (cfg := { Config.standard with wireAddSub := true }) h⟩
  rw [Config.dispatches_iff (cfg := .standard) h]
  constructor
  · rintro ⟨op, rfl, hw⟩
    cases op with
    | add | sub => cases hw
    | hlt | push | pop | prn | ldi | mul => decide
  · rintro (rfl | rfl | rfl | rfl | rfl | rfl)
    · exact ⟨.hlt, rfl, rfl⟩
    · exact ⟨.push, rfl, rfl⟩
    · exact ⟨.pop, rfl, rfl⟩
    · exact ⟨.prn, rfl, rfl⟩
    · exact ⟨.ldi, rfl, rfl⟩
    · exact ⟨.mul, rfl, rfl⟩

/-! ### 30_encoding.md sections 1, 2 and 5: words and lines with the default map -/

/-- Settles O11: each word is the encoding of its instruction in the default map, which is legal. -/
theorem sampleBytesDecodeToTheirInstructions :
    Obligations.SampleBytesDecodeToTheirInstructions :=
  have decodes (i : Instr) (hi : i.wellFormed = true) :=
    decodeOfEncodeIsTheInstruction .standard i OpcodeMap.standard_legal hi
  ⟨decodes .hlt rfl, decodes (.ldi (some 3) (some 255)) rfl, decodes (.push (some 7)) rfl,
    decodes (.mul (some 0) (some 1)) rfl, rfl, rfl⟩

/-- Settles O14: each line's bytes are its mnemonic's default opcode and its operand bytes. -/
theorem assemblyLinesEncodeAsTabled : Obligations.AssemblyLinesEncodeAsTabled :=
  fun _ _ _ => ⟨rfl, rfl, rfl, rfl, rfl, rfl, rfl, rfl, rfl⟩

/-! ### 00_scope.md R4: the default build -/

/-- The default build is legal. -/
theorem Config.standard_legal : Config.standard.Legal := ⟨OpcodeMap.standard_legal, by decide⟩

end Sys2Proof

namespace Sys2Proof.Machine

/-! ### 10_state.md R11: the writers of a register -/

/-- A latch fetched from an address names only the register its byte numbers. -/
theorem eq_of_mem_namedRegister_latchAt {s : State} {a i : Nat}
    (h : i ∈ namedRegister s (s.latchAt a)) : i = (s.mem.read a).toNat := by
  rcases Nat.lt_or_ge a s.cfg.memSize with ha | ha
  · rw [latchAt_of_lt s ha] at h
    simp only [namedRegister] at h
    split at h
    · cases h
    · exact List.mem_singleton.1 h
  · rw [latchAt_of_ge s ha] at h
    cases h

/-- The destination of a fetched ALU instruction is R0, or the register that its first operand byte numbers. -/
theorem aluDestination_latchAt_cases {s : State} {a i : Nat}
    (h : i ∈ aluDestination s (s.latchAt a)) :
    (s.cfg.aluOperands = .fixedR0R1 ∧ i = 0) ∨
      (s.cfg.aluOperands = .fromOperandBytes ∧ i = (s.mem.read a).toNat) := by
  rw [aluDestination] at h
  cases hm : s.cfg.aluOperands with
  | fixedR0R1 =>
    rw [hm] at h
    exact .inl ⟨rfl, List.mem_singleton.1 h⟩
  | fromOperandBytes =>
    rw [hm] at h
    exact .inr ⟨rfl, eq_of_mem_namedRegister_latchAt h⟩

/-- An effect that changes a register keeps STATUS, and the register is one of its instruction's destinations. -/
theorem Effect.of_readReg_ne {s t : State} {i : Instr} {r : Nat} (h : Effect s i t)
    (hr : t.readReg r ≠ s.readReg r) : t.status = s.status ∧ r ∈ s.destinations i := by
  have hdest : r ∈ s.destinations i := by
    by_contra hnot
    exact hr (h.sameRegistersOutside r hnot)
  have hhlt : i.op ≠ .hlt := by
    intro hop
    rw [Instr.eq_hlt_of_op hop] at hdest
    cases hdest
  refine ⟨?_, hdest⟩
  rcases h.keeps_status_or_faults hhlt with ⟨hst, -⟩ | ht
  · exact hst
  · exact absurd (by rw [ht]; rfl) hr

/-- Settles O31: a fault changes no register, and an effect only the destination that its mnemonic and first latch give. -/
theorem onlyTheirWritersChangeRegisters : Obligations.OnlyTheirWritersChangeRegisters := by
  intro s t i hm h hne
  obtain ⟨hrun, ⟨-, rfl⟩ | ⟨-, -, rfl⟩ | ⟨-, op, hop, he⟩⟩ := step_effect h
  · exact absurd rfl hne
  · exact absurd rfl hne
  · obtain ⟨hst, hdest⟩ := he.of_readReg_ne hne
    have halu : aluFlag s.opcodeByte = op.isAlu := by
      rw [State.opcodeByte, ← hop, OpcodeMap.aluFlag_code hm]
    refine ⟨hst.trans hrun, ?_⟩
    cases op with
    | hlt | push | prn => cases hdest
    | ldi => exact .inl ⟨.inl hop.symm, eq_of_mem_namedRegister_latchAt hdest⟩
    | pop => exact .inl ⟨.inr hop.symm, eq_of_mem_namedRegister_latchAt hdest⟩
    | mul | add | sub =>
      rcases aluDestination_latchAt_cases hdest with hfixed | hfrom
      · exact .inr (.inl ⟨halu, hfixed⟩)
      · exact .inr (.inr ⟨halu, hfrom⟩)

/-! ### 10_state.md R15 and R20: the writers of sp and of OUT -/

/-- Settles O32: a fault and every other mnemonic keep sp, and a PUSH or POP that completes moves it by exactly one. -/
theorem onlyPushAndPopMoveTheStackPointer :
    Obligations.OnlyPushAndPopMoveTheStackPointer := by
  intro s t _ h
  obtain ⟨hrun, ⟨-, rfl⟩ | ⟨-, -, rfl⟩ | ⟨-, op, hop, he⟩⟩ := step_effect h
  · exact .inl rfl
  · exact .inl rfl
  · cases op with
    | push =>
      rcases he.push_completes_or_faults with ⟨-, hst, -, -, hsp⟩ | ht
      · exact .inr (.inl ⟨hop.symm, hst.trans hrun, hsp⟩)
      · exact .inl (by rw [ht])
    | pop =>
      rcases he.pop_completes_or_faults with ⟨-, hst, -, -, hsp⟩ | ht
      · exact .inr (.inr ⟨hop.symm, hst.trans hrun, hsp⟩)
      · exact .inl (by rw [ht])
    | hlt | prn | ldi | mul | add | sub => exact .inl (he.sp_eq nofun nofun)

/-- A PRN keeps OUT, or completes and appends the register its operand byte names (41 R92). -/
theorem Effect.prn_keeps_out_or_emits {s t : State} {a : Latch} (h : Effect s (.prn a) t) :
    t.out = s.out ∨
      ∃ x, a = some x ∧ t.status = s.status ∧ t.out = s.out ++ [s.readReg x.toNat] := by
  cases h with
  | faulted => exact .inl rfl
  | emitted x => exact .inr ⟨x, rfl, rfl, rfl⟩
  | computed _ x y v p hi => simp at hi

/-- Settles O34: a fault and every other mnemonic keep OUT, and a PRN that completes appends the register that the byte at pc + 1 names. -/
theorem onlyPrnAppendsToOut : Obligations.OnlyPrnAppendsToOut := by
  intro s t _ h
  obtain ⟨hrun, ⟨-, rfl⟩ | ⟨-, -, rfl⟩ | ⟨-, op, hop, he⟩⟩ := step_effect h
  · exact .inl rfl
  · exact .inl rfl
  · cases op with
    | prn =>
      rcases he.prn_keeps_out_or_emits with hout | ⟨x, hx, hst, hout⟩
      · exact .inl hout
      · obtain ⟨-, rfl⟩ := latchAt_eq_some hx
        exact .inr ⟨hop.symm, hst.trans hrun, hout⟩
    | hlt | push | pop | ldi | mul | add | sub => exact .inl (he.out_eq nofun)

/-- Settles O50: no effect and no fault entry writes `cfg`. -/
theorem noStepChangesTheParameters : Obligations.NoStepChangesTheParameters :=
  fun _ _ h => step_cfg_eq h

/-! ### 10_state.md R20: no instruction reads OUT -/

/-- The state with other earlier output. -/
def State.withOut (s : State) (o : List Byte) : State := { s with out := o }

/-- A handler whose answer differs only in OUT leads to a next state that differs only in OUT. -/
theorem conclude_withOut {s t : State} {op : Op} {r r' : Except Cause State} {o : List Byte}
    (hr : r' = (·.withOut o) <$> r) (h : conclude s op r = .next t) :
    conclude (s.withOut o) op r' = .next (t.withOut o) := by
  subst hr
  rcases conclude_next h with ⟨c, rfl, rfl⟩ | ⟨u, rfl, rfl⟩ <;> rfl

/-- A store carries OUT through. -/
theorem memWrite_withOut (s : State) (o : List Byte) (place : FaultPlace) (a : Nat) (v : Byte) :
    memWrite (s.withOut o) place a v = (·.withOut o) <$> memWrite s place a v := by
  rcases Nat.lt_or_ge a s.cfg.memSize with ha | ha
  · rw [memWrite_of_lt s place v ha]
    exact memWrite_of_lt (s.withOut o) place v ha
  · rw [memWrite_of_ge s place v ha]
    exact memWrite_of_ge (s.withOut o) place v ha

/-- An ALU handler carries OUT through: its registers come from the latches, and its operands from the register file. -/
theorem aluHandler_withOut (sel : BitVec 2) (a b : Latch) (s : State) (o : List Byte) :
    aluHandler sel a b (s.withOut o) = (·.withOut o) <$> aluHandler sel a b s := by
  simp only [aluHandler, map_bind]
  rfl

/-- Every instruction but PRN gives the same next state from other earlier output, that output in it. -/
theorem exec_withOut {i : Instr} {s t : State} (o : List Byte) (hi : i.op ≠ .prn)
    (h : exec i s = .next t) : exec i (s.withOut o) = .next (t.withOut o) := by
  cases i with
  | prn a => exact absurd rfl hi
  | hlt =>
    cases h
    rfl
  | push a =>
    refine conclude_withOut ?_ h
    rw [map_bind]
    refine bind_congr fun r => ?_
    rw [apply_ite (Functor.map _), map_bind]
    refine if_congr Iff.rfl rfl ?_
    rw [memWrite_withOut, bind_map_left]
    rfl
  | pop a =>
    refine conclude_withOut ?_ h
    rw [map_bind]
    refine bind_congr fun r => ?_
    rw [apply_ite (Functor.map _), map_bind]
    rfl
  | ldi a imm => exact conclude_withOut (by simp only [map_bind]; rfl) h
  | mul a b => exact conclude_withOut (aluHandler_withOut selMul a b s o) h
  | add a b => exact conclude_withOut (by simp only [aluHandler_withOut, map_bind]; rfl) h
  | sub a b => exact conclude_withOut (by simp only [aluHandler_withOut, map_bind]; rfl) h

/-- A register operand does not depend on OUT. -/
theorem registerOperand_withOut (s : State) (o : List Byte) (a : Latch) :
    registerOperand (s.withOut o) a = registerOperand s a := rfl

/-- PRN is its register operand, then the output (41 R92). -/
theorem exec_prn (s : State) (a : Latch) :
    exec (.prn a) s = conclude s .prn (do
      let r ← registerOperand s a
      .ok (s.emit (s.readReg r))) := rfl

/-- A PRN appends the same bytes to other earlier output: none where it faults, its register where it completes. -/
theorem exec_prn_withOut {a : Latch} {s t : State} (o : List Byte) (h : exec (.prn a) s = .next t) :
    ∃ new, t.out = s.out ++ new ∧ exec (.prn a) (s.withOut o) = .next (t.withOut (o ++ new)) := by
  rw [exec_prn] at h
  simp only [exec_prn, registerOperand_withOut]
  cases hr : registerOperand s a with
  | error c =>
    rw [hr] at h
    cases h
    exact ⟨[], (List.append_nil _).symm, by rw [List.append_nil]; rfl⟩
  | ok r =>
    rw [hr] at h
    cases h
    exact ⟨[s.readReg r], rfl, rfl⟩

/-- Settles O35: PRN appends its register to any earlier output, and every other instruction carries OUT through. -/
theorem noInstructionReadsOut : Obligations.NoInstructionReadsOut := by
  intro i s t o h
  by_cases hi : i.op = .prn
  · cases i with
    | prn a => exact exec_prn_withOut o h
    | hlt | push | pop | ldi | mul | add | sub => cases hi
  · refine ⟨[], ?_, ?_⟩
    · rw [(exec_effect h).out_eq hi, List.append_nil]
    · rw [List.append_nil]
      exact exec_withOut o hi h

end Sys2Proof.Machine

namespace Sys2Proof.Machine

/-! ### 10_state.md R23: reset meets the invariant -/

/-- Reset of a legal build meets the invariant: Memory is empty, pc is 0, sp is SP_INIT and no fault is recorded. -/
theorem inv_resetWith {cfg : Config} (h : cfg.Legal) : (State.resetWith cfg).Inv where
  build := h
  memory := ⟨List.Pairwise.nil, nofun⟩
  registers := List.length_replicate
  pcBound := Nat.zero_le _
  spBound := h.2.2.2
  recorded := ⟨nofun, fun hk => absurd rfl hk⟩
  faultPc := nofun
  record := recordLegal_of_cleared rfl

/-- Settles O47: every legal build's reset meets the invariant, and the default build is one. -/
theorem resetMeetsTheInvariant : Obligations.ResetMeetsTheInvariant :=
  ⟨inv_resetWith Config.standard_legal, fun _ h => inv_resetWith h⟩

/-! ### 70_reset_and_hazards.md R144: the load port -/

/-- A cell holds the byte placed at it, or is as before. -/
theorem Memory.read_place {m : Memory} {size addr : Nat} {bytes : List Byte} (hw : m.wf size)
    (hend : addr + bytes.length ≤ size) (a : Nat) :
    (m.place size addr bytes).read a =
      if addr ≤ a then bytes.getD (a - addr) (m.read a) else m.read a := by
  induction bytes generalizing m addr with
  | nil => simp [Memory.place]
  | cons b bytes ih =>
    rw [List.length_cons] at hend
    have hlt : addr < size := by omega
    rw [Memory.place, if_neg (Nat.not_le.2 hlt), ih (Memory.wf_write hw hlt) (by omega),
      Memory.read_write hw]
    rcases Nat.lt_trichotomy a addr with h | rfl | h
    · simp [Nat.not_le.2 h, Nat.ne_of_lt h, show ¬ addr + 1 ≤ a by omega]
    · simp
    · obtain ⟨k, rfl⟩ := Nat.exists_eq_add_of_lt h
      simp [show addr + k + 1 - addr = k + 1 by omega, show addr + k + 1 - (addr + 1) = k by omega,
        show addr + 1 ≤ addr + k + 1 by omega, show addr ≤ addr + k + 1 by omega,
        show addr + k + 1 ≠ addr by omega]

/-- A load port write within Memory is accepted. -/
theorem loadWrite_of_lt {s : State} {addr : Nat} (b : Byte) (h : addr < s.cfg.memSize) :
    loadWrite s addr b = ({ s with mem := s.mem.write addr b }, .accepted) := by
  rw [loadWrite, memWrite_of_lt s _ b h]

/-- A load port write past the end of Memory answers OutOfBounds and changes nothing. -/
theorem loadWrite_of_ge {s : State} {addr : Nat} (b : Byte) (h : s.cfg.memSize ≤ addr) :
    loadWrite s addr b = (s, .outOfBounds) := by
  rw [loadWrite, memWrite_of_ge s _ b h]

/-- A load that fits is accepted and places its bytes. -/
theorem loadFrom_of_fits {s : State} {addr : Nat} {bytes : List Byte}
    (h : addr + bytes.length ≤ s.cfg.memSize) :
    loadFrom s addr bytes = ({ s with mem := s.mem.place s.cfg.memSize addr bytes }, .accepted) := by
  induction bytes generalizing s addr with
  | nil => rfl
  | cons b bytes ih =>
    rw [List.length_cons] at h
    have hlt : addr < s.cfg.memSize := by omega
    have hrest := ih (s := { s with mem := s.mem.write addr b }) (addr := addr + 1)
      (by simp only; omega)
    simp only [loadFrom, loadWrite_of_lt b hlt, hrest, Memory.place, if_neg (Nat.not_le.2 hlt)]

/-- A load that does not fit answers OutOfBounds at its first byte past the end, with STATUS and the fault record as before. -/
theorem loadFrom_of_too_long {s : State} {addr : Nat} {bytes : List Byte}
    (haddr : addr ≤ s.cfg.memSize) (h : s.cfg.memSize < addr + bytes.length) :
    (loadFrom s addr bytes).2 = .outOfBounds ∧ (loadFrom s addr bytes).1.status = s.status ∧
      (loadFrom s addr bytes).1.fault = s.fault := by
  induction bytes generalizing s addr with
  | nil => exact absurd haddr (Nat.not_le.2 h)
  | cons b bytes ih =>
    rw [List.length_cons] at h
    rcases Nat.lt_or_ge addr s.cfg.memSize with hlt | hge
    · have hrest := ih (s := { s with mem := s.mem.write addr b }) (addr := addr + 1) hlt
        (by simp only; omega)
      simpa only [loadFrom, loadWrite_of_lt b hlt] using hrest
    · simp only [loadFrom, loadWrite_of_ge b hge, and_self]

/-- Settles O51: a load that fits places its bytes from address 0, and a longer one ends at the first write that Memory rejects. -/
theorem loadPortWritesTheProgramFromZero : Obligations.LoadPortWritesTheProgramFromZero := by
  refine fun s bytes hw => ⟨fun hfits => ?_, fun hlong => ?_⟩
  · have hend : 0 + bytes.length ≤ s.cfg.memSize := by omega
    refine ⟨_, loadFrom_of_fits hend, rfl, Memory.wf_place hw 0 bytes, fun a => ?_⟩
    exact Memory.read_place hw hend a
  · exact loadFrom_of_too_long (Nat.zero_le _) (by omega)

/-! ### 70_reset_and_hazards.md R146: the host's moves -/

/-- A running core is before its first step exactly at pc 0 (entry 5). -/
theorem beforeFirstStep_of_running {s : State} (hs : s.status = .running) :
    s.beforeFirstStep = true ↔ s.pc = 0 := by
  simp [State.beforeFirstStep, hs]

/-- At pc 0 the host's write is the load port's. -/
theorem hostMove_loadWrite_of_pc_zero {s : State} (hs : s.status = .running) (hpc : s.pc = 0)
    (addr : Nat) (b : Byte) : hostMove s (.loadWrite addr b) = some (loadWrite s addr b) :=
  if_pos ((beforeFirstStep_of_running hs).2 hpc)

/-- Past pc 0 the host has no write. -/
theorem hostMove_loadWrite_of_pc_ne_zero {s : State} (hs : s.status = .running) (hpc : s.pc ≠ 0)
    (addr : Nat) (b : Byte) : hostMove s (.loadWrite addr b) = none :=
  if_neg fun h => hpc ((beforeFirstStep_of_running hs).1 h)

/-- The host's step takes the step there is and returns the new STATUS. -/
theorem hostMove_step_of_next {s t : State} (h : step s = .next t) :
    hostMove s .step = some (t, .status t.status) := by
  simp only [hostMove, h]

/-- The host's run of a running core returns the result its last state stands for. -/
theorem hostMove_run_of_result {s : State} {r : RunResult} (hs : s.status = .running)
    (hr : (run (runBound s.cfg) s).result = some r) :
    hostMove s .run = some (run (runBound s.cfg) s, .ended r) := by
  simp only [hostMove, hs, hr, Option.map_some]

/-- Settles O52: pc 0 admits the load port's write, a running core has a step, and its run ends within the bound. -/
theorem hostMovesOnARunningCore : Obligations.HostMovesOnARunningCore := by
  refine fun s addr b hs => ⟨rfl, fun hpc => hostMove_loadWrite_of_pc_ne_zero hs hpc addr b,
    fun hpc ha => ?_, fun hpc ha => ?_, ?_, fun hsize => ?_⟩
  · rw [hostMove_loadWrite_of_pc_zero hs hpc, loadWrite_of_lt b ha]
  · rw [hostMove_loadWrite_of_pc_zero hs hpc, loadWrite_of_ge b ha]
  · obtain ⟨t, ht⟩ := step_of_running hs
    exact ⟨t, ht, hostMove_step_of_next ht⟩
  · obtain ⟨-, hended⟩ :=
      everyRunEndsWithin257Steps s (s.cfg.memSize + 1) hsize (Nat.lt_succ_self _)
    obtain ⟨r, hr⟩ := Option.isSome_iff_exists.1 hended
    exact ⟨_, r, rfl, hr, hostMove_run_of_result hs hr⟩

/-! ### 70_reset_and_hazards.md R145: the loader's line rule -/

/-- A binary digit's character. -/
def bitChar (d : Bool) : Char := if d = true then '1' else '0'

/-- The low `n` bits of a number as binary digits, most significant first. -/
def bitsText (x : Nat) : Nat → List Char
  | 0 => []
  | n + 1 => bitChar (x.testBit n) :: bitsText x n

/-- A bit's character is read as that bit. -/
theorem binaryDigit_bitChar (d : Bool) : binaryDigit (bitChar d) = some d.toNat := by
  cases d <;> decide

/-- A character is no binary digit when it is neither 0 nor 1. -/
theorem binaryDigit_eq_none_iff {c : Char} : binaryDigit c = none ↔ c ≠ '0' ∧ c ≠ '1' := by
  by_cases h0 : c = '0'
  · simp [binaryDigit, h0]
  · by_cases h1 : c = '1' <;> simp [binaryDigit, h0, h1]

/-- The low `n` bits of a number are read as that number's remainder, after what was read before. -/
theorem readBinary_bitsText (x acc n : Nat) :
    readBinary acc (bitsText x n) = some (2 ^ n * acc + x % 2 ^ n) := by
  induction n generalizing acc with
  | zero => simp [bitsText, readBinary, Nat.mod_one]
  | succ n ih =>
    rw [bitsText, readBinary, binaryDigit_bitChar]
    simp only [ih]
    rw [Nat.mod_pow_succ, ← Nat.toNat_testBit]
    congr 1
    ring

/-- Text with a character that is no binary digit is no binary number. -/
theorem readBinary_eq_none {cs : List Char} {d : Char} (hd : d ∈ cs) (h : binaryDigit d = none)
    (acc : Nat) : readBinary acc cs = none := by
  induction cs generalizing acc with
  | nil => cases hd
  | cons c cs ih =>
    rw [readBinary]
    rcases List.mem_cons.1 hd with rfl | hd
    · simp only [h]
    · cases binaryDigit c with
      | none => rfl
      | some k => exact ih hd _

/-- The text of `n` bits has `n` characters. -/
theorem length_bitsText (x n : Nat) : (bitsText x n).length = n := by
  induction n with
  | zero => rfl
  | succ n ih => rw [bitsText, List.length_cons, ih]

/-- A line whose first 8 characters are read as a number is that byte. -/
theorem parseLine_of_readBinary {c : Char} {cs : List Char} {v : Nat} (hc : binaryDigit c ≠ none)
    (hlen : 8 ≤ (c :: cs).length) (h : readBinary 0 ((c :: cs).take 8) = some v) :
    parseLine (c :: cs) = .byte (BitVec.ofNat 8 v) := by
  simp only [parseLine, Option.isNone_iff_eq_none, if_neg hc, if_neg (Nat.not_lt.2 hlen), h]

/-- A line that begins with a binary digit is malformed where it is short or its first 8 characters are no number. -/
theorem parseLine_of_malformed {c : Char} {cs : List Char} (hc : binaryDigit c ≠ none)
    (h : (c :: cs).length < 8 ∨ readBinary 0 ((c :: cs).take 8) = none) :
    parseLine (c :: cs) = .malformed := by
  simp only [parseLine, Option.isNone_iff_eq_none, if_neg hc]
  split
  · rfl
  · rw [h.resolve_left ‹_›]

/-- A line that begins with the 8 digits of a byte is that byte, whatever follows. -/
theorem parseLine_bitsText (b : Byte) (rest : List Char) :
    parseLine (bitsText b.toNat 8 ++ rest) = .byte b := by
  have hread : readBinary 0 ((bitsText b.toNat 8 ++ rest).take 8) = some b.toNat := by
    rw [List.take_left' (length_bitsText _ _), readBinary_bitsText, Nat.mul_zero, Nat.zero_add,
      Nat.mod_eq_of_lt b.isLt]
  have hlen : 8 ≤ (bitsText b.toNat 8 ++ rest).length := by
    rw [List.length_append, length_bitsText]
    exact Nat.le_add_right _ _
  have hdigit : binaryDigit (bitChar (b.toNat.testBit 7)) ≠ none := by simp [binaryDigit_bitChar]
  have hbyte := parseLine_of_readBinary hdigit hlen hread
  rwa [BitVec.ofNat_toNat, BitVec.setWidth_eq] at hbyte

/-- Settles O53: the loader looks at a line's first character, then its length, then its first 8 characters. -/
theorem loaderReadsOneByteALine : Obligations.LoaderReadsOneByteALine := by
  refine ⟨parseLine_bitsText, rfl, fun c cs h0 h1 => ?_, fun c cs hc h => ?_⟩
  · have hnone : binaryDigit c = none := binaryDigit_eq_none_iff.2 ⟨h0, h1⟩
    simp only [parseLine, hnone, Option.isNone_none, if_true]
  · have hdigit : binaryDigit c ≠ none := fun hnone =>
      hc.elim (binaryDigit_eq_none_iff.1 hnone).1 (binaryDigit_eq_none_iff.1 hnone).2
    refine parseLine_of_malformed hdigit (h.imp_right ?_)
    rintro ⟨d, hd, hbad⟩
    exact readBinary_eq_none hd (binaryDigit_eq_none_iff.2 hbad) 0

end Sys2Proof.Machine

namespace Sys2Proof.Machine

/-! ### 30_encoding.md R60: cutting and trimming text -/

/-- Text cut at a mark has at least one piece. -/
theorem splitText_ne_nil (p : Char → Bool) (t : List Char) : splitText p t ≠ [] := by
  cases t with
  | nil => nofun
  | cons c cs =>
    rw [splitText]
    split
    · nofun
    · split <;> nofun

/-- Text without a mark is one piece. -/
theorem splitText_of_unmarked {p : Char → Bool} {t : List Char} (h : ∀ c ∈ t, p c = false) :
    splitText p t = [t] := by
  induction t with
  | nil => rfl
  | cons c cs ih =>
    rw [List.forall_mem_cons] at h
    simp [splitText, ih h.2, h.1]

/-- Text is cut at its first mark. -/
theorem splitText_append_cons {p : Char → Bool} {t : List Char} {c : Char} (u : List Char)
    (h : ∀ d ∈ t, p d = false) (hc : p c = true) :
    splitText p (t ++ c :: u) = t :: splitText p u := by
  induction t with
  | nil =>
    obtain ⟨first, others, hu⟩ := List.exists_cons_of_ne_nil (splitText_ne_nil p u)
    simp [splitText, hu, hc]
  | cons d ds ih =>
    rw [List.forall_mem_cons] at h
    simp [splitText, ih h.2, h.1]

/-- Text that does not begin with a space loses none at its front. -/
theorem dropWhile_space_eq_self {t : List Char} (h : t.head? ≠ some ' ') :
    t.dropWhile (· == ' ') = t := by
  cases t with
  | nil => rfl
  | cons c cs =>
    have hc : c ≠ ' ' := by simpa using h
    simp [hc]

/-- Text with no space at either end is trimmed already. -/
theorem trimText_eq_self {t : List Char} (hfirst : t.head? ≠ some ' ')
    (hlast : t.getLast? ≠ some ' ') : trimText t = t := by
  rw [trimText, dropWhile_space_eq_self hfirst, dropWhile_space_eq_self (by rwa [List.head?_reverse]),
    List.reverse_reverse]

/-! ### 30_encoding.md R60: the words of a line -/

/-- A mnemonic or an operand as it is written: letters and digits, at least one. -/
abbrev IsWord (t : List Char) : Prop := t ≠ [] ∧ ∀ c ∈ t, c.isAlphanum = true

/-- Text that is checked to be letters and digits is a word. -/
theorem isWord_of_all {t : List Char} (h : (!t.isEmpty && t.all Char.isAlphanum) = true) :
    IsWord t := by
  simpa using h

/-- Decimal digits are a word. -/
theorem isWord_toDigits (n : Nat) : IsWord (Nat.toDigits 10 n) := by
  refine ⟨Nat.toDigits_ne_nil, fun c hc => ?_⟩
  have hdigit : c.isDigit = true := Nat.isDigit_of_mem_toDigits (by decide) (by decide) hc
  rw [Char.isAlphanum, hdigit, Bool.or_true]

/-- A register's name is a word. -/
theorem isWord_registerText (r : Fin 8) : IsWord (registerText r) :=
  ⟨nofun, List.forall_mem_cons.2 ⟨rfl, (isWord_toDigits r.val).2⟩⟩

section IsWord
variable {t : List Char} (h : IsWord t)
include h

/-- A word holds no mark that is neither letter nor digit. -/
theorem IsWord.unmarked {p : Char → Bool} (hp : ∀ c, p c = true → c.isAlphanum = false) :
    ∀ c ∈ t, p c = false := fun c hc =>
  Bool.eq_false_iff.2 fun hmark => absurd (h.2 c hc) (by simp [hp c hmark])

/-- A word holds no space. -/
theorem IsWord.no_space : ∀ c ∈ t, c ≠ ' ' := by
  rintro _ hc rfl
  cases h.2 ' ' hc

/-- A word does not begin with a space. -/
theorem IsWord.head?_ne : t.head? ≠ some ' ' := fun hs =>
  h.no_space ' ' (List.mem_of_head? hs) rfl

/-- A word does not end with a space. -/
theorem IsWord.getLast?_ne : t.getLast? ≠ some ' ' := fun hs =>
  h.no_space ' ' (List.mem_of_getLast? hs) rfl

/-- A word is trimmed already. -/
theorem IsWord.trimText : trimText t = t := trimText_eq_self h.head?_ne h.getLast?_ne

end IsWord

/-- The comma is neither letter nor digit. -/
theorem isAlphanum_of_comma (c : Char) (h : (c == ',') = true) : c.isAlphanum = false := by
  rw [beq_iff_eq.1 h]
  rfl

/-- A line end is neither letter nor digit. -/
theorem isAlphanum_of_lineEnd (c : Char) (h : (c == ';' || c == '\n') = true) :
    c.isAlphanum = false := by
  rcases Bool.or_eq_true_iff.1 h with h | h <;> rw [beq_iff_eq.1 h] <;> rfl

/-- Text of one line, not blank and with no space at either end, is read as that line. -/
theorem parseAsm_of_line {line : List Char} {l : Asm} (hne : line ≠ [])
    (hend : ∀ c ∈ line, (c == ';' || c == '\n') = false) (htrim : trimText line = line)
    (h : parseAsmLine line = some l) : parseAsm line = some [l] := by
  simp [parseAsm, splitText_of_unmarked hend, htrim, hne, h]

/-- The operands of a line: one word, or two with a comma between them. -/
inductive Operands : List Char → List (List Char) → Prop
  | one {a : List Char} (ha : IsWord a) : Operands a [a]
  | two {a b : List Char} (ha : IsWord a) (hb : IsWord b) : Operands (a ++ ',' :: b) [a, b]

section Operands
variable {t : List Char} {operands : List (List Char)} (h : Operands t operands)
include h

/-- Operands are some text. -/
theorem Operands.ne_nil : t ≠ [] := by
  cases h with
  | one ha => exact ha.1
  | two => simp

/-- Operands do not begin with a space. -/
theorem Operands.head?_ne : t.head? ≠ some ' ' := by
  cases h with
  | one ha => exact ha.head?_ne
  | two ha => rw [List.head?_append_of_ne_nil _ ha.1]; exact ha.head?_ne

/-- Operands do not end with a space. -/
theorem Operands.getLast?_ne : t.getLast? ≠ some ' ' := by
  cases h with
  | one ha => exact ha.getLast?_ne
  | two ha hb =>
    rw [List.getLast?_append_of_ne_nil _ (by simp), List.getLast?_cons_of_ne_nil hb.1]
    exact hb.getLast?_ne

/-- Operands hold no line end. -/
theorem Operands.no_lineEnd : ∀ c ∈ t, (c == ';' || c == '\n') = false := by
  cases h with
  | one ha => exact ha.unmarked isAlphanum_of_lineEnd
  | two ha hb =>
    rw [List.forall_mem_append, List.forall_mem_cons]
    exact ⟨ha.unmarked isAlphanum_of_lineEnd, by decide,
      hb.unmarked isAlphanum_of_lineEnd⟩

/-- Operands are cut into their words. -/
theorem Operands.split : (splitText (· == ',') t).map trimText = operands := by
  cases h with
  | one ha =>
    rw [splitText_of_unmarked (ha.unmarked isAlphanum_of_comma), List.map_singleton,
      ha.trimText]
  | two ha hb =>
    rw [splitText_append_cons _ (ha.unmarked isAlphanum_of_comma) (by decide),
      splitText_of_unmarked (hb.unmarked isAlphanum_of_comma), List.map_cons,
      List.map_singleton, ha.trimText, hb.trimText]

end Operands

/-- A line of a mnemonic alone is read as that mnemonic without operands. -/
theorem parseAsm_mnemonic {mnemonic : List Char} {l : Asm} (hm : IsWord mnemonic)
    (h : readLine mnemonic [] = some l) : parseAsm mnemonic = some [l] := by
  have hspace : ∀ c ∈ mnemonic, (c != ' ') = true := fun c hc =>
    bne_iff_ne.2 (hm.no_space c hc)
  refine parseAsm_of_line hm.1 (hm.unmarked isAlphanum_of_lineEnd) hm.trimText ?_
  simp only [parseAsmLine, hm.trimText, List.dropWhile_eq_nil_iff.2 hspace,
    List.takeWhile_eq_self_iff.2 hspace]
  exact h

/-- A line of a mnemonic, a space and operands is read as that mnemonic with those operands. -/
theorem parseAsm_operands {mnemonic t : List Char} {operands : List (List Char)} {l : Asm}
    (hm : IsWord mnemonic) (ht : Operands t operands) (h : readLine mnemonic operands = some l) :
    parseAsm (mnemonic ++ ' ' :: t) = some [l] := by
  have hspace : ∀ c ∈ mnemonic, (c != ' ') = true := fun c hc =>
    bne_iff_ne.2 (hm.no_space c hc)
  have hline : trimText (mnemonic ++ ' ' :: t) = mnemonic ++ ' ' :: t := by
    refine trimText_eq_self ?_ ?_
    · rw [List.head?_append_of_ne_nil _ hm.1]
      exact hm.head?_ne
    · rw [List.getLast?_append_of_ne_nil _ (by simp), List.getLast?_cons_of_ne_nil ht.ne_nil]
      exact ht.getLast?_ne
  refine parseAsm_of_line (by simp) ?_ hline ?_
  · rw [List.forall_mem_append, List.forall_mem_cons]
    exact ⟨hm.unmarked isAlphanum_of_lineEnd, by decide, ht.no_lineEnd⟩
  · have hoperands : trimText (' ' :: t) = t := by
      rw [trimText, List.dropWhile_cons_of_pos (by decide)]
      exact trimText_eq_self ht.head?_ne ht.getLast?_ne
    simp only [parseAsmLine, hline, List.dropWhile_append_of_pos hspace,
      List.takeWhile_append_of_pos hspace]
    simp [hoperands, ht.ne_nil, ht.split, h]

/-! ### 30_encoding.md R60: registers and immediates -/

/-- A register's name is read as that register. -/
theorem readRegister_registerText (r : Fin 8) : readRegister (registerText r) = some r := by
  have hlt : r.val < 10 := by omega
  have hd : r.val.digitChar.toNat = 48 + r.val := Nat.toNat_digitChar_of_lt_ten hlt
  have hr : 48 + r.val < 56 := by omega
  simp [registerText, Nat.toDigits_of_lt_base hlt, readRegister, hd, hr]

/-- Digits are read one after another: what was read before them is the value they go on from. -/
theorem readDecimal_append {acc v : Nat} {ds : List Char} (h : readDecimal acc ds = some v)
    (es : List Char) : readDecimal acc (ds ++ es) = readDecimal v es := by
  induction ds generalizing acc with
  | nil =>
    cases h
    rfl
  | cons d ds ih =>
    rw [readDecimal] at h
    rw [List.cons_append, readDecimal]
    split at h
    · rw [if_pos ‹_›, ih h]
    · cases h

/-- One more decimal digit is read as ten times the value before it, and the digit. -/
theorem readDecimal_digitChar (acc : Nat) {k : Nat} (h : k < 10) :
    readDecimal acc [k.digitChar] = some (10 * acc + k) := by
  have hk : 48 + k < 58 := by omega
  simp [readDecimal, Nat.toNat_digitChar_of_lt_ten h, hk]

/-- A number in decimal is read as that number. -/
theorem readDecimal_toDigits (n : Nat) : readDecimal 0 (Nat.toDigits 10 n) = some n := by
  induction n using Nat.strongRecOn with
  | ind n ih =>
    rcases Nat.lt_or_ge n 10 with h | h
    · rw [Nat.toDigits_of_lt_base h, readDecimal_digitChar 0 h, Nat.mul_zero, Nat.zero_add]
    · rw [Nat.toDigits_of_base_le (by decide) h, readDecimal_append (ih (n / 10) (by omega)),
        readDecimal_digitChar _ (Nat.mod_lt n (by decide)), Nat.div_add_mod]

/-- An immediate in decimal is read as that byte. -/
theorem readImmediate_toDigits (v : Byte) : readImmediate (Nat.toDigits 10 v.toNat) = some v := by
  obtain ⟨d, ds, hds⟩ := List.exists_cons_of_ne_nil (Nat.toDigits_ne_nil (n := v.toNat) (b := 10))
  have hread : readDecimal 0 (d :: ds) = some v.toNat := hds ▸ readDecimal_toDigits v.toNat
  simp [hds, readImmediate, hread, v.isLt]

/-! ### 30_encoding.md R60: each line -/

/-- A line of one register operand is read. -/
theorem readOne_registerText (make : Fin 8 → Asm) (r : Fin 8) :
    readOne make [registerText r] = some (make r) := by
  simp [readOne, readRegister_registerText]

/-- A line of two register operands is read. -/
theorem readTwo_registerText (make : Fin 8 → Fin 8 → Asm) (ra rb : Fin 8) :
    readTwo make [registerText ra, registerText rb] = some (make ra rb) := by
  simp [readTwo, readRegister_registerText]

/-- An LDI's two operands are read. -/
theorem readLine_ldi (ra : Fin 8) (imm : Byte) :
    readLine "LDI".toList [registerText ra, Nat.toDigits 10 imm.toNat] = some (.ldi ra imm) := by
  simp [readLine, readRegister_registerText, readImmediate_toDigits]

/-- A mnemonic, its space and one register read back. -/
theorem parseAsm_one {mnemonic : List Char} {ra : Fin 8} {l : Asm} (hm : IsWord mnemonic)
    (h : readLine mnemonic [registerText ra] = some l) :
    parseAsm (mnemonic ++ [' '] ++ registerText ra) = some [l] := by
  rw [List.append_assoc]
  exact parseAsm_operands hm (.one (isWord_registerText ra)) h

/-- A mnemonic, its space, a register, the comma and another operand read back. -/
theorem parseAsm_two {mnemonic b : List Char} {ra : Fin 8} {l : Asm} (hm : IsWord mnemonic)
    (hb : IsWord b) (h : readLine mnemonic [registerText ra, b] = some l) :
    parseAsm (mnemonic ++ [' '] ++ registerText ra ++ [','] ++ b) = some [l] := by
  simp only [List.append_assoc]
  exact parseAsm_operands hm (.two (isWord_registerText ra) hb) h

/-- Settles O15: no separator stands inside a mnemonic or an operand, so the line is cut into the words it was written from, and each reads back. -/
theorem assemblyTextReadsBack : Obligations.AssemblyTextReadsBack := by
  intro l
  cases l with
  | hlt => exact parseAsm_mnemonic (mnemonic := "HLT".toList) (isWord_of_all rfl) rfl
  | mulBare => exact parseAsm_mnemonic (mnemonic := "MUL".toList) (isWord_of_all rfl) rfl
  | prn ra =>
    exact parseAsm_one (mnemonic := "PRN".toList) (isWord_of_all rfl) (readOne_registerText .prn ra)
  | push ra =>
    exact parseAsm_one (mnemonic := "PUSH".toList) (isWord_of_all rfl) (readOne_registerText .push ra)
  | pop ra =>
    exact parseAsm_one (mnemonic := "POP".toList) (isWord_of_all rfl) (readOne_registerText .pop ra)
  | ldi ra imm =>
    exact parseAsm_two (mnemonic := "LDI".toList) (isWord_of_all rfl) (isWord_toDigits imm.toNat)
      (readLine_ldi ra imm)
  | mul ra rb =>
    exact parseAsm_two (mnemonic := "MUL".toList) (isWord_of_all rfl) (isWord_registerText rb)
      (readTwo_registerText .mul ra rb)
  | add ra rb =>
    exact parseAsm_two (mnemonic := "ADD".toList) (isWord_of_all rfl) (isWord_registerText rb)
      (readTwo_registerText .add ra rb)
  | sub ra rb =>
    exact parseAsm_two (mnemonic := "SUB".toList) (isWord_of_all rfl) (isWord_registerText rb)
      (readTwo_registerText .sub ra rb)

end Sys2Proof.Machine
